-- ==== Sys2Proof/Word.lean ====
section
/-! DEFINITION. The word types of the block: every quantity is unsigned (R6). -/

namespace Sys2Proof

/-- A byte: every stream carries bytes and PBUF is byte addressed (R5 "byte width", R33). -/
abbrev Byte := BitVec 8

/-- The 16-bit unsigned quantities: the frame's length field, `p_len`, `p_remaining`, `e_remaining` (R5, R16, R19, R20). -/
abbrev Half := BitVec 16

/-- The width of LEN_REQ, the payload length the host asks for (R5, R51). -/
abbrev LenReq := BitVec 32

/-- A command word on the block's command port (R50). -/
abbrev CmdWord := BitVec 64

end Sys2Proof
end

