-- ==== Sys2Proof/Config.lean ====
section
/-! DEFINITION. What is fixed when the block is built, and the values the spec leaves open.
The open ones are constants without a body, so that no proof can see what they are. -/

namespace Sys2Proof.Config

/-- SYNC1, the first sync byte (R5, R45). -/
def sync1 : Byte := 0xB5#8

/-- SYNC2, the second sync byte (R5, R45). -/
def sync2 : Byte := 0x62#8

/-- The capacity of the 16-bit length field: the longest payload of a frame (R5, R44, R74). -/
def maxFrameLen : Nat := 65535

/-- MAX_PAYLOAD of the block that `State.reset` describes: an integer from 0 to 65535, left OPEN (R5; log entry 1, DESIGN CHOICE).
The type holds exactly the configurations of this hardware, so a value outside the range is refused by typing.
A machine's own MAX_PAYLOAD is `State.maxPayload`; every claim holds whatever it is. -/
opaque maxPayload : Fin 65536

/-! Free values: what the parser's registers hold after reset number `n` (R29 "unspecified", R123; log entry 6).
The argument is `State.freeEpoch`, so that each reset leaves values of its own. -/

/-- `p_class` after a reset. -/
opaque freePClass : Nat → Byte

/-- `p_id` after a reset. -/
opaque freePId : Nat → Byte

/-- `p_len` after a reset. -/
opaque freePLen : Nat → Half

/-- `p_remaining` after a reset. -/
opaque freePRemaining : Nat → Half

/-- `p_rx_cka` after a reset. -/
opaque freePRxCka : Nat → Byte

/-- `PCK.A` after a reset. -/
opaque freePckA : Nat → Byte

/-- `PCK.B` after a reset. -/
opaque freePckB : Nat → Byte

/-- The byte PBUF holds at an address nothing has written since a reset (R29, R33; log entry 7): epoch, then address. -/
opaque freePbufByte : Nat → Nat → Byte

end Sys2Proof.Config
end

