-- ==== Sys2Proof/Syntax.lean ====
section
/-! DEFINITION. The commands of the block: one constructor for each row of spec/opcode_table.json (R52).
Each operand has the width of its field (R50, R51), so every value of this type is a command that some word spells. -/

namespace Sys2Proof

/-- The block's seven commands (R52, R53). -/
inductive Instr where
  /-- `ENC_BEGIN cls, id, len`: open a frame (R76). -/
  | encBegin (cls id : Byte) (len : LenReq)
  /-- `ENC_DATA b`: the next payload byte of the open frame (R77). -/
  | encData (b : Byte)
  /-- `ENC_POLL cls, id`: a whole frame with an empty payload (R78). -/
  | encPoll (cls id : Byte)
  /-- `PARSE_BYTE b`: the next byte of the parser's input stream (R84). -/
  | parseByte (b : Byte)
  /-- `CK_CLEAR`: clear CKU (R69). -/
  | ckClear
  /-- `CK_UPDATE b`: add a byte to CKU (R70). -/
  | ckUpdate (b : Byte)
  /-- `RESET`: the effect of the reset input (R105). -/
  | reset
deriving DecidableEq, Repr

/-- The unit a command belongs to (R11, the `unit` column of R52). -/
def Instr.isEncoder : Instr → Bool
  | .encBegin _ _ _ => true
  | .encData _ => true
  | .encPoll _ _ => true
  | .parseByte _ => false
  | .ckClear => false
  | .ckUpdate _ => false
  | .reset => false

/-- PARSE_BYTE is the parser's one command (R11, R84). -/
def Instr.isParser : Instr → Bool
  | .parseByte _ => true
  | .encBegin _ _ _ => false
  | .encData _ => false
  | .encPoll _ _ => false
  | .ckClear => false
  | .ckUpdate _ => false
  | .reset => false

/-- CK_CLEAR and CK_UPDATE are the commands of the stand-alone unit CKU (R11, R25). -/
def Instr.isChecksum : Instr → Bool
  | .ckClear => true
  | .ckUpdate _ => true
  | .encBegin _ _ _ => false
  | .encData _ => false
  | .encPoll _ _ => false
  | .parseByte _ => false
  | .reset => false

/-- The mnemonic of a command, as R52's table spells it. -/
def Instr.mnemonic : Instr → String
  | .encBegin _ _ _ => "ENC_BEGIN"
  | .encData _ => "ENC_DATA"
  | .encPoll _ _ => "ENC_POLL"
  | .parseByte _ => "PARSE_BYTE"
  | .ckClear => "CK_CLEAR"
  | .ckUpdate _ => "CK_UPDATE"
  | .reset => "RESET"

end Sys2Proof
end

