-- ==== Sys2Proof/Machine/State.lean ====
section
/-! DEFINITION. The state of the block, as plain data, unit by unit (R11), with its inputs and its two output streams;
the faults and refusals a step can end in; the state after reset. -/

namespace Sys2Proof.Machine

/-! ## Registers -/

/-- A checksum accumulator instance `(A, B)`, that is CK_A and CK_B (R14). -/
structure Acc where
  a : Byte
  b : Byte
deriving DecidableEq, Repr

/-- The values of `e_state` (R15). -/
inductive EncState where
  /-- No frame is open. -/
  | idle
  /-- A header has been emitted and `e_remaining` payload bytes are owed. -/
  | payload
deriving DecidableEq, Repr

/-- The nine values of `p_state` (R21). `Emit` is not one of them (R94). -/
inductive ParserState where
  | seekSync1
  | seekSync2
  | readClass
  | readId
  | readLenLo
  | readLenHi
  | readPayload
  | readCkA
  | readCkB
deriving DecidableEq, Repr

/-- PBUF's contents: (address, byte) pairs, addresses strictly rising (`Memory.wf`). An address that is not listed
holds no value, since nothing has written it since the last reset (R29, R33; log entry 7). -/
abbrev Memory := List Host.Cell

/-- The Frame Encoder's state (R15 to R17). -/
structure Encoder where
  /-- `e_state` (R15). -/
  eState : EncState
  /-- `e_remaining` (R16). -/
  eRemaining : Half
  /-- `ECK` (R17). -/
  eck : Acc
deriving DecidableEq, Repr

/-- The Frame Parser's state (R18 to R24). -/
structure Parser where
  /-- `p_state` (R21). -/
  pState : ParserState
  /-- `p_class` (R18). -/
  pClass : Byte
  /-- `p_id` (R18). -/
  pId : Byte
  /-- `p_len` (R19). -/
  pLen : Half
  /-- `p_remaining` (R20). -/
  pRemaining : Half
  /-- `p_rx_cka` (R22). -/
  pRxCka : Byte
  /-- `PCK` (R23). -/
  pck : Acc
  /-- `PBUF` (R24, R33). -/
  pbuf : Memory
deriving DecidableEq, Repr

/-! ## Outputs and inputs -/

/-- The error taxonomy (R106, R107). -/
inductive ErrorKind where
  | invalidLength
  | checksumMismatch
  | frameTooLarge
deriving DecidableEq, Repr

/-- An event record (R106). The `none` of R106 is the absence of one. -/
inductive Event where
  | frame (cls id : Byte) (payload : List Byte)
  | error (e : ErrorKind)
deriving DecidableEq, Repr

/-- What the outside world can give the block: a command word on the port, or the reset input (R10, R122; log entry 11,
DEDUCED). -/
inductive PortInput where
  | command (w : CmdWord)
  | resetInput
deriving DecidableEq, Repr

/-! ## The state -/

/-- The whole state of the model. The spec's own state is `enc`, `rx`, `cku` and the mark `faulted` (R11); `maxPayload`
is the build-time parameter (R5); `port`, `tx` and `events` are the block's input and outputs (R10, R12); `freeEpoch`
is the model's own counter for free values (log entry 6). -/
structure State where
  /-- The Frame Encoder (R15 to R17). -/
  enc : Encoder
  /-- The Frame Parser (R18 to R24). -/
  rx : Parser
  /-- `CKU`, the host-visible accumulator (R25). -/
  cku : Acc
  /-- MAX_PAYLOAD, the capacity of PBUF in bytes: no step changes it (R5, R27; log entry 1). -/
  maxPayload : Fin 65536
  /-- The model-only mark of a run that has faulted (R26, R117; log entry 10). -/
  faulted : Bool
  /-- What the host and the platform will give the block, the next one first (R10, R41; log entry 2, DEDUCED). -/
  port : List PortInput
  /-- The TX stream, oldest byte first, append-only (R12; log entry 4). -/
  tx : List Byte
  /-- The event stream, oldest first, append-only (R12; log entry 4). -/
  events : List Event
  /-- How many resets have happened: the argument of the free values (log entry 6). -/
  freeEpoch : Nat
deriving DecidableEq, Repr

/-! ## How a step can stop -/

/-- Why the machine stops. All of these are the model's verdict, not an output of the block (R116). -/
inductive Fault where
  /-- A command word that does not decode; raised when a step takes the word (R54 to R56, R116). Safe. -/
  | reservedEncoding
  /-- ENC_BEGIN or ENC_POLL while a frame is open; raised by those two meanings (R76, R78, R116). Safe. -/
  | encFrameOpen
  /-- ENC_DATA while no frame is open; raised by that meaning (R77, R116). Safe. -/
  | encNoFrame
  /-- A step of a run that has faulted: the stuck state of R117, raised before anything else. Safe. -/
  | stuckAfterFault
  /-- PARSE_BYTE would access PBUF at or above MAX_PAYLOAD, where no byte exists (R33); raised only in states that
  the parser invariant R31 rules out (log entry 8). Safe. -/
  | pbufNoSuchAddress
deriving DecidableEq, Repr

/-- Why an instruction has no meaning. -/
inductive Refusal where
  /-- The instruction of this mnemonic has no meaning yet; raised by an arm of `exec`. No arm raises it. Safe. -/
  | notModelled (mnemonic : String)
deriving DecidableEq, Repr

/-- What the next step does, read from the port (R10, R117). -/
inductive Action where
  /-- Nothing: the block does nothing unless a command arrives (R10). -/
  | idle
  /-- The step is a fault. -/
  | stop (r : Fault)
  /-- The reset input, in this state. -/
  | resetInput (s : State)
  /-- This command, in this state. -/
  | run (i : Instr) (s : State)
deriving DecidableEq, Repr

/-! ## Reset -/

/-- The accumulator that `CkClear` leaves (R63). -/
def Acc.zero : Acc := ⟨0#8, 0#8⟩

/-- The encoder after reset (R29, R123). -/
def Encoder.afterReset : Encoder := { eState := .idle, eRemaining := 0#16, eck := Acc.zero }

/-- The parser at the start of a run: `p_state` as R29 gives it; the registers R29 leaves unspecified at zero, and PBUF
with no byte written (log entry 5, DESIGN CHOICE). -/
def Parser.atStart : Parser :=
  { pState := .seekSync1, pClass := 0#8, pId := 0#8, pLen := 0#16, pRemaining := 0#16, pRxCka := 0#8,
    pck := Acc.zero, pbuf := [] }

/-- The state in which a run begins (R29, R122, R134): nothing on the port, nothing output. -/
def State.reset : State :=
  { enc := Encoder.afterReset, rx := Parser.atStart, cku := Acc.zero, maxPayload := Config.maxPayload,
    faulted := false, port := [], tx := [], events := [], freeEpoch := 0 }

end Sys2Proof.Machine
end

