-- ==== Sys2Proof/Machine/Ops.lean ====
section
/-! DEFINITION. The shared operations: the accumulator primitives, PBUF, the two output streams, and reset. The block
has no exceptions to take: an error saves nothing and vectors nowhere (R111, R112), so reporting one is `postError`. -/

namespace Sys2Proof.Machine

/-! ## Accumulators (R63, R64) -/

/-- `CkUpdate`: CK_B adds the CK_A that already includes the byte; both sums wrap modulo 256 (R64). -/
def Acc.update (x : Acc) (b : Byte) : Acc := ⟨x.a + b, x.b + (x.a + b)⟩

/-- `CkUpdate` with each byte of a sequence, in order (R65, R67). -/
def Acc.updateAll (x : Acc) (bs : List Byte) : Acc := bs.foldl Acc.update x

/-! ## PBUF as data: the canonical form and its two operations -/

/-- The canonical form: addresses strictly rising. An unlisted address holds no value, so no entry can equal what an
unlisted address reads as, and equal contents are equal lists. -/
abbrev Memory.wf (m : Memory) : Prop := m.Pairwise fun x y => x.1 < y.1

/-- Every listed address exists in a buffer of `cap` bytes (R33). -/
abbrev Memory.within (cap : Nat) (m : Memory) : Prop := ∀ c ∈ m, c.1 < cap

/-- The byte last written at an address, or nothing where nothing has been written. -/
def Memory.read : Memory → Nat → Option Byte
  | [], _ => none
  | (k, v) :: t, a => if a = k then some v else Memory.read t a

/-- The contents after one byte is written. -/
def Memory.write : Memory → Nat → Byte → Memory
  | [], a, v => [(a, v)]
  | (k, x) :: t, a, v =>
    if a < k then (a, v) :: (k, x) :: t
    else if a = k then (a, v) :: t
    else (k, x) :: Memory.write t a v

/-! ## PBUF as the parser accesses it (R33, R34) -/

/-- PBUF has a byte at this address: 0 to MAX_PAYLOAD - 1 (R33). -/
abbrev pbufHas (s : State) (addr : Nat) : Prop := addr < s.maxPayload.val

/-- `MemRead(addr, 1)`: the byte written there, or a free value where nothing has been written since the last reset
(R29 "unspecified contents"; log entry 7, DESIGN CHOICE). -/
def memRead (s : State) (addr : Nat) : Byte :=
  match s.rx.pbuf.read addr with
  | some v => v
  | none => Config.freePbufByte s.freeEpoch addr

/-- `MemWrite(addr, 1, v)`. -/
def memWrite (s : State) (addr : Nat) (v : Byte) : State :=
  { s with rx := { s.rx with pbuf := s.rx.pbuf.write addr v } }

/-- The number of the payload byte the parser takes next, which is the PBUF address PARSE_BYTE stores it to in
ReadPayload: `p_len - p_remaining` (R20, R34, R91), modulo 65536 in the states R31 rules out (log entry 9, DESIGN CHOICE). -/
def payloadIndex (s : State) : Nat := (s.rx.pLen - s.rx.pRemaining).toNat

/-- Every byte PBUF must give for the frame being received exists: `p_len` is at most MAX_PAYLOAD (R33, R90). -/
abbrev payloadFits (s : State) : Prop := s.rx.pLen.toNat ≤ s.maxPayload.val

/-- `[MemRead(0,1), ..., MemRead(p_len-1,1)]` (R94). -/
def framePayload (s : State) : List Byte := (List.range s.rx.pLen.toNat).map (memRead s)

/-! ## The output streams (R8, R12) -/

/-- `emit`: append bytes to the TX stream. -/
def emit (s : State) (bs : List Byte) : State := { s with tx := s.tx ++ bs }

/-- `post`: append an event to the event stream. -/
def post (s : State) (e : Event) : State := { s with events := s.events ++ [e] }

/-- Reporting an error (R106, R111): an event with its kind, and nothing else. -/
def postError (s : State) (e : ErrorKind) : State := post s (.error e)

/-! ## Parser state -/

/-- `p_state <- v`. -/
def setPState (s : State) (v : ParserState) : State := { s with rx := { s.rx with pState := v } }

/-- `CkUpdate(PCK, b)`. -/
def updatePck (s : State) (b : Byte) : State := { s with rx := { s.rx with pck := s.rx.pck.update b } }

/-! ## Reset (R123) -/

/-- The parser after reset number `n`: `p_state` as R123 writes it, every register R123 leaves unspecified at a free
value, and PBUF with no byte written (log entries 6 and 7, DESIGN CHOICE). -/
def Parser.afterReset (n : Nat) : Parser :=
  { pState := .seekSync1, pClass := Config.freePClass n, pId := Config.freePId n, pLen := Config.freePLen n,
    pRemaining := Config.freePRemaining n, pRxCka := Config.freePRxCka n,
    pck := ⟨Config.freePckA n, Config.freePckB n⟩, pbuf := [] }

/-- `ApplyReset()`: no TX byte, no event, and nothing of the streams already output is taken back (R123, R124). -/
def applyReset (s : State) : State :=
  { s with enc := Encoder.afterReset, rx := Parser.afterReset (s.freeEpoch + 1), cku := Acc.zero,
           freeEpoch := s.freeEpoch + 1 }

end Sys2Proof.Machine
end

