-- ==== Sys2Proof/Machine/Checksum.lean ====
section
/-! DEFINITION. The checksum function (R65) and the two commands of the stand-alone unit CKU (R69, R70). -/

namespace Sys2Proof.Machine

/-- `Checksum(s)` (R65). -/
def checksum (bs : List Byte) : Acc := Acc.zero.updateAll bs

/-- CK_CLEAR (R69). -/
def execCkClear (s : State) : Host.Outcome State Fault Refusal := .next { s with cku := Acc.zero }

/-- CK_UPDATE (R70). -/
def execCkUpdate (b : Byte) (s : State) : Host.Outcome State Fault Refusal := .next { s with cku := s.cku.update b }

end Sys2Proof.Machine
end

