-- ==== Sys2Proof/Machine/Control.lean ====
section
/-! DEFINITION. The control command RESET (R105). -/

namespace Sys2Proof.Machine

/-- RESET: exactly the effect of the reset input (R105, R123). -/
def execReset (s : State) : Host.Outcome State Fault Refusal := .next (applyReset s)

end Sys2Proof.Machine
end

