-- ==== Sys2Proof/Machine/Operands.lean ====
section
/-! DEFINITION. The operand forms. A command's operands are bytes, taken as they are, and LEN_REQ, taken as an unsigned
32-bit number (R51); the one multi-byte quantity is the 16-bit length, and it is little-endian on the wire (R36, R46). -/

namespace Sys2Proof.Machine

/-- LEN_REQ asks for more than the 16-bit length field can say (R76, R108). -/
abbrev reqTooLong (len : LenReq) : Prop := Config.maxFrameLen < len.toNat

/-- `n = len[15:0]` (R76). -/
def reqLen (len : LenReq) : Half := len.extractLsb' 0 16

/-- `lo = n[7:0]`, the byte at frame offset 4 (R36, R44). -/
def lenLo (n : Half) : Byte := n.extractLsb' 0 8

/-- `hi = n[15:8]`, the byte at frame offset 5 (R36, R44). -/
def lenHi (n : Half) : Byte := n.extractLsb' 8 8

/-- `L = {LEN_HI, LEN_LO}` (R46). -/
def lenOf (hi lo : Byte) : Half := hi ++ lo

/-- `n[7:0] <- b` (R89). -/
def setLenLo (n : Half) (b : Byte) : Half := lenOf (lenHi n) b

/-- `n[15:8] <- b` (R90). -/
def setLenHi (n : Half) (b : Byte) : Half := lenOf b (lenLo n)

/-- The header that ENC_BEGIN and ENC_POLL emit, for a payload of `n` bytes (R44, R76, R78). -/
def frameHeader (cls id : Byte) (n : Half) : List Byte :=
  [Config.sync1, Config.sync2, cls, id, lenLo n, lenHi n]

/-- The header bytes that the checksum covers: all but the sync pair (R45, R47). -/
def summedHeader (cls id : Byte) (n : Half) : List Byte := [cls, id, lenLo n, lenHi n]

/-- The checksum bytes of a frame as they are sent: CK_A first, CK_B second (R37, R66). -/
def ckBytes (x : Acc) : List Byte := [x.a, x.b]

end Sys2Proof.Machine
end

