-- ==== Sys2Proof/Machine/Encoder.lean ====
section
/-! DEFINITION. The Frame Encoder's three commands (R76 to R78). -/

namespace Sys2Proof.Machine

/-- `CkClear(ECK)`, then `CkUpdate(ECK, …)` with the four summed header bytes (R76, R78). -/
def headerSum (cls id : Byte) (n : Half) : Acc := Acc.zero.updateAll (summedHeader cls id n)

/-- A frame with no payload, emitted whole: header, then CK_A and CK_B (R76 with n = 0, R78). -/
def emitEmptyFrame (cls id : Byte) (s : State) : State :=
  emit { s with enc := { s.enc with eState := .idle, eck := headerSum cls id 0#16 } }
    (frameHeader cls id 0#16 ++ ckBytes (headerSum cls id 0#16))

/-- A frame opened for `n` payload bytes: its header (R76 with n > 0). -/
def openFrame (cls id : Byte) (n : Half) (s : State) : State :=
  emit { s with enc := { eState := .payload, eRemaining := n, eck := headerSum cls id n } } (frameHeader cls id n)

/-- The state after a payload byte is emitted and summed (R77); `e_remaining` wraps where R30 rules the state out (log
entry 9, DESIGN CHOICE). -/
def emitPayloadByte (b : Byte) (s : State) : State :=
  emit { s with enc := { s.enc with eRemaining := s.enc.eRemaining - 1#16, eck := s.enc.eck.update b } } [b]

/-- The open frame's CK_A and CK_B, which close it (R77). -/
def closeFrame (s : State) : State :=
  emit { s with enc := { s.enc with eState := .idle } } (ckBytes s.enc.eck)

/-- ENC_BEGIN (R76): the open-frame check comes before the length check (R118). -/
def execEncBegin (cls id : Byte) (len : LenReq) (s : State) : Host.Outcome State Fault Refusal :=
  match s.enc.eState with
  | .payload => .fault .encFrameOpen
  | .idle =>
    if reqTooLong len then .next (postError s .invalidLength)
    else if reqLen len = 0#16 then .next (emitEmptyFrame cls id s)
    else .next (openFrame cls id (reqLen len) s)

/-- ENC_DATA (R77). -/
def execEncData (b : Byte) (s : State) : Host.Outcome State Fault Refusal :=
  match s.enc.eState with
  | .idle => .fault .encNoFrame
  | .payload =>
    if s.enc.eRemaining - 1#16 = 0#16 then .next (closeFrame (emitPayloadByte b s)) else .next (emitPayloadByte b s)

/-- ENC_POLL (R78). -/
def execEncPoll (cls id : Byte) (s : State) : Host.Outcome State Fault Refusal :=
  match s.enc.eState with
  | .payload => .fault .encFrameOpen
  | .idle => .next (emitEmptyFrame cls id s)

end Sys2Proof.Machine
end

