-- ==== Sys2Proof/Machine/Parser.lean ====
section
/-! DEFINITION. The Frame Parser's command PARSE_BYTE (R84), one operation per value of `p_state` (R85 to R94). -/

namespace Sys2Proof.Machine

/-- SeekSync1 (R85). -/
def parseSeekSync1 (b : Byte) (s : State) : State :=
  if b = Config.sync1 then setPState s .seekSync2 else s

/-- SeekSync2: 0x62 starts a frame and its checksum, 0xB5 is a new first sync byte (R86). -/
def parseSeekSync2 (b : Byte) (s : State) : State :=
  if b = Config.sync2 then { s with rx := { s.rx with pState := .readClass, pck := Acc.zero } }
  else if b = Config.sync1 then setPState s .seekSync2
  else setPState s .seekSync1

/-- ReadClass (R87). -/
def parseReadClass (b : Byte) (s : State) : State :=
  setPState (updatePck { s with rx := { s.rx with pClass := b } } b) .readId

/-- ReadId (R88). -/
def parseReadId (b : Byte) (s : State) : State :=
  setPState (updatePck { s with rx := { s.rx with pId := b } } b) .readLenLo

/-- ReadLenLo (R89). -/
def parseReadLenLo (b : Byte) (s : State) : State :=
  setPState (updatePck { s with rx := { s.rx with pLen := setLenLo s.rx.pLen b } } b) .readLenHi

/-- ReadLenHi, and the length check against MAX_PAYLOAD, which is strict (R90). -/
def parseReadLenHi (b : Byte) (s : State) : State :=
  let n := setLenHi s.rx.pLen b
  let t := updatePck { s with rx := { s.rx with pLen := n } } b
  if s.maxPayload.val < n.toNat then setPState (postError t .frameTooLarge) .seekSync1
  else if n = 0#16 then setPState t .readCkA
  else { t with rx := { t.rx with pRemaining := n, pState := .readPayload } }

/-- The effect of a payload byte whose address exists (R91); `p_remaining` wraps where R31 rules the state out (log entry
9, DESIGN CHOICE). -/
def storePayloadByte (b : Byte) (s : State) : State :=
  let t := updatePck (memWrite s (payloadIndex s) b) b
  let r := s.rx.pRemaining - 1#16
  { t with rx := { t.rx with pRemaining := r, pState := if r = 0#16 then .readCkA else .readPayload } }

/-- ReadPayload (R91). An address PBUF does not have is a fault (R33; log entry 8, DEDUCED). -/
def parseReadPayload (b : Byte) (s : State) : Host.Outcome State Fault Refusal :=
  if pbufHas s (payloadIndex s) then .next (storePayloadByte b s) else .fault .pbufNoSuchAddress

/-- ReadCkA: the byte is kept, not yet compared (R92). -/
def parseReadCkA (b : Byte) (s : State) : State :=
  { s with rx := { s.rx with pRxCka := b, pState := .readCkB } }

/-- Emit: the validated frame is posted, its payload by value (R94). -/
def emitFrameEvent (s : State) : Host.Outcome State Fault Refusal :=
  if payloadFits s then
    .next (setPState (post s (.frame s.rx.pClass s.rx.pId (framePayload s))) .seekSync1)
  else .fault .pbufNoSuchAddress

/-- ReadCkB: both checksum bytes are compared together (R93). -/
def parseReadCkB (b : Byte) (s : State) : Host.Outcome State Fault Refusal :=
  if s.rx.pRxCka = s.rx.pck.a ∧ b = s.rx.pck.b then emitFrameEvent s
  else .next (setPState (postError s .checksumMismatch) .seekSync1)

/-- PARSE_BYTE (R84). -/
def execParseByte (b : Byte) (s : State) : Host.Outcome State Fault Refusal :=
  match s.rx.pState with
  | .seekSync1 => .next (parseSeekSync1 b s)
  | .seekSync2 => .next (parseSeekSync2 b s)
  | .readClass => .next (parseReadClass b s)
  | .readId => .next (parseReadId b s)
  | .readLenLo => .next (parseReadLenLo b s)
  | .readLenHi => .next (parseReadLenHi b s)
  | .readPayload => parseReadPayload b s
  | .readCkA => .next (parseReadCkA b s)
  | .readCkB => parseReadCkB b s

end Sys2Proof.Machine
end

