-- ==== Sys2Proof/Machine/Dispatch.lean ====
section
/-! DEFINITION. One arm per command: a direct call of its meaning. -/

namespace Sys2Proof.Machine

def exec (i : Instr) (s : State) : Host.Outcome State Fault Refusal :=
  match i with
  | .encBegin cls id len => Sys2Proof.Machine.execEncBegin cls id len s
  | .encData b => Sys2Proof.Machine.execEncData b s
  | .encPoll cls id => Sys2Proof.Machine.execEncPoll cls id s
  | .parseByte b => Sys2Proof.Machine.execParseByte b s
  | .ckClear => Sys2Proof.Machine.execCkClear s
  | .ckUpdate b => Sys2Proof.Machine.execCkUpdate b s
  | .reset => Sys2Proof.Machine.execReset s

end Sys2Proof.Machine
end

