-- ==== Sys2Proof/WellFormed.lean ====
section
/-! DEFINITION. What is well formed: a command WORD (R52's match and mask pairs, R128) and an ASSEMBLER LINE
(R58 to R61, which say what an assembler refuses). A value of `Instr` needs no check: each operand's type is its
field's width. -/

namespace Sys2Proof

/-- One row of the opcode map (R52): a word is the row's when `word &&& mask = pattern`. -/
structure OpRow where
  mnemonic : String
  pattern : CmdWord
  mask : CmdWord
deriving DecidableEq, Repr

/-- The opcode map of R52, row by row. -/
def opRows : List OpRow :=
  [ ⟨"ENC_BEGIN", 0x1000000000000000#64, 0xF0000FFF00000000#64⟩,
    ⟨"ENC_DATA", 0x2000000000000000#64, 0xFFFFFFFFFFFFFF00#64⟩,
    ⟨"ENC_POLL", 0x3000000000000000#64, 0xF0000FFFFFFFFFFF#64⟩,
    ⟨"PARSE_BYTE", 0x4000000000000000#64, 0xFFFFFFFFFFFFFF00#64⟩,
    ⟨"CK_CLEAR", 0x5000000000000000#64, 0xFFFFFFFFFFFFFFFF#64⟩,
    ⟨"CK_UPDATE", 0x6000000000000000#64, 0xFFFFFFFFFFFFFF00#64⟩,
    ⟨"RESET", 0x7000000000000000#64, 0xFFFFFFFFFFFFFFFF#64⟩ ]

/-- A word selects a row exactly when `(w & mask) == match` (R52). -/
def OpRow.selects (r : OpRow) (w : CmdWord) : Bool := w &&& r.mask == r.pattern

/-- A command word is well formed when some row of the opcode map selects it (R52, R128). -/
def CmdWord.wf (w : CmdWord) : Bool := opRows.any fun r => r.selects w

/-- A line of assembler text, its numbers as written (R58), the pseudo-instructions of R59 to R61 among them. -/
inductive AsmLine where
  | encBegin (cls id len : Nat)
  | encData (b : Nat)
  | encPoll (cls id : Nat)
  | parseByte (b : Nat)
  | ckClear
  | ckUpdate (b : Nat)
  | reset
  /-- `ENC_FRAME cls, id, [b0, …]` (R59). -/
  | encFrame (cls id : Nat) (payload : List Nat)
  /-- `PARSE_BUF [b0, …]` (R60). -/
  | parseBuf (bytes : List Nat)
  /-- `CK_BUF [b0, …]` (R61). -/
  | ckBuf (bytes : List Nat)
deriving DecidableEq, Repr

/-- A number an assembler takes for `cls`, `id` or `b`: 0 to 255 (R58). -/
def asmByteOk (n : Nat) : Bool := n ≤ 255

/-- A number an assembler takes for `len`: 0 to 0xFFFFFFFF (R58); the bound on n of ENC_FRAME too (R59). -/
def asmLenOk (n : Nat) : Bool := n ≤ 0xFFFFFFFF

/-- What an assembler accepts (R58 to R61): it refuses a number that the word cannot hold. -/
def AsmLine.wf : AsmLine → Bool
  | .encBegin cls id len => asmByteOk cls && asmByteOk id && asmLenOk len
  | .encData b => asmByteOk b
  | .encPoll cls id => asmByteOk cls && asmByteOk id
  | .parseByte b => asmByteOk b
  | .ckClear => true
  | .ckUpdate b => asmByteOk b
  | .reset => true
  | .encFrame cls id p => asmByteOk cls && asmByteOk id && p.all asmByteOk && asmLenOk p.length
  | .parseBuf bs => bs.all asmByteOk
  | .ckBuf bs => bs.all asmByteOk

end Sys2Proof
end

