-- ==== Sys2Proof/Decode.lean ====
section
/-! DEFINITION. Decoding a command word (R54), total on every 64-bit value and rejecting by name, then the encoder
(R58) and the assembler's expansion of a line into commands (R58 to R61). -/

namespace Sys2Proof

/-- Why a word spells no command. Both reasons are the model fault ReservedEncoding (R55, R56, R116). -/
inductive DecodeReject where
  /-- OP is 0x0 or 0x8 to 0xF (R55). -/
  | reservedOpcode
  /-- OP is assigned and a bit that must be zero is not (R53, R56). -/
  | nonzeroReservedBit
deriving DecidableEq, Repr

/-! ## The fields of a command word (R50, R51) -/

/-- OP, bits 63:60. -/
def opField (w : CmdWord) : BitVec 4 := w.extractLsb' 60 4

/-- CLASS, bits 59:52. -/
def clsField (w : CmdWord) : Byte := w.extractLsb' 52 8

/-- ID, bits 51:44. -/
def idField (w : CmdWord) : Byte := w.extractLsb' 44 8

/-- RSV, bits 43:32, zero in every command. -/
def rsvField (w : CmdWord) : BitVec 12 := w.extractLsb' 32 12

/-- OPND, bits 31:0: LEN_REQ where the command has one. -/
def opndField (w : CmdWord) : LenReq := w.extractLsb' 0 32

/-- OPND[31:8], zero where the command takes DATA. -/
def opndHighField (w : CmdWord) : BitVec 24 := w.extractLsb' 8 24

/-- DATA, OPND[7:0]. -/
def dataField (w : CmdWord) : Byte := w.extractLsb' 0 8

/-- Bits 59:0, zero in CK_CLEAR and RESET. -/
def bodyField (w : CmdWord) : BitVec 60 := w.extractLsb' 0 60

/-- The check of the commands whose one operand is DATA (R54, OP 0x2, 0x4 and 0x6). -/
def onlyData (w : CmdWord) : Bool :=
  clsField w == 0#8 && idField w == 0#8 && rsvField w == 0#12 && opndHighField w == 0#24

/-- The command if its must-be-zero bits are zero, else the rejection (R54, R56). -/
def acceptIf (zeroBitsAreZero : Bool) (i : Instr) : Except DecodeReject Instr :=
  if zeroBitsAreZero then .ok i else .error .nonzeroReservedBit

/-- R54, case by case. -/
def decode (w : CmdWord) : Except DecodeReject Instr :=
  match (opField w).toNat with
  | 0x1 => acceptIf (rsvField w == 0#12) (.encBegin (clsField w) (idField w) (opndField w))
  | 0x2 => acceptIf (onlyData w) (.encData (dataField w))
  | 0x3 => acceptIf (rsvField w == 0#12 && opndField w == 0#32) (.encPoll (clsField w) (idField w))
  | 0x4 => acceptIf (onlyData w) (.parseByte (dataField w))
  | 0x5 => acceptIf (bodyField w == 0#60) .ckClear
  | 0x6 => acceptIf (onlyData w) (.ckUpdate (dataField w))
  | 0x7 => acceptIf (bodyField w == 0#60) .reset
  | _ => .error .reservedOpcode

/-! ## The encoder (R58) -/

/-- A field value moved to its place in the word. -/
def place {n : Nat} (v : BitVec n) (lo : Nat) : CmdWord := v.setWidth 64 <<< lo

/-- The word R58 writes for a command. -/
def encode : Instr → CmdWord
  | .encBegin cls id len => place 0x1#4 60 ||| place cls 52 ||| place id 44 ||| place len 0
  | .encData b => place 0x2#4 60 ||| place b 0
  | .encPoll cls id => place 0x3#4 60 ||| place cls 52 ||| place id 44
  | .parseByte b => place 0x4#4 60 ||| place b 0
  | .ckClear => place 0x5#4 60
  | .ckUpdate b => place 0x6#4 60 ||| place b 0
  | .reset => place 0x7#4 60

/-! ## The assembler (R58 to R61) -/

/-- A number of an assembler line as a byte; `AsmLine.wf` has checked that it fits. -/
def asmByte (n : Nat) : Byte := BitVec.ofNat 8 n

/-- The commands a well-formed line stands for (R58 to R61). `ENC_FRAME` of more than 65535 bytes is ENC_BEGIN alone (R59). -/
def expand : AsmLine → List Instr
  | .encBegin cls id len => [.encBegin (asmByte cls) (asmByte id) (BitVec.ofNat 32 len)]
  | .encData b => [.encData (asmByte b)]
  | .encPoll cls id => [.encPoll (asmByte cls) (asmByte id)]
  | .parseByte b => [.parseByte (asmByte b)]
  | .ckClear => [.ckClear]
  | .ckUpdate b => [.ckUpdate (asmByte b)]
  | .reset => [.reset]
  | .encFrame cls id p =>
    .encBegin (asmByte cls) (asmByte id) (BitVec.ofNat 32 p.length) ::
      (if p.length ≤ 65535 then p.map fun b => .encData (asmByte b) else [])
  | .parseBuf bs => bs.map fun b => .parseByte (asmByte b)
  | .ckBuf bs => bs.map fun b => .ckUpdate (asmByte b)

/-- The command words of a line, or nothing where an assembler refuses it (R58, R59). -/
def assemble (l : AsmLine) : Option (List CmdWord) :=
  if l.wf then some ((expand l).map encode) else none

/-! ## The host's entry point -/

/-- The command word whose bits, numbered as the opcode table numbers them, are `w` (R38, R57: one 64-bit word, bit 0
the least significant; the bits from `nbits` up are zero). -/
def tableWord (nbits w : Nat) : CmdWord := BitVec.ofNat 64 (w % 2 ^ nbits)

/-- The command that the decoder reads from the table's bits; nothing for more bits than a command word has (R57). -/
def decodeTableWord (nbits w : Nat) : Option Instr :=
  if nbits ≤ 64 then (decode (tableWord nbits w)).toOption else none

end Sys2Proof
end

