-- ==== Sys2Proof/Machine/Port.lean ====
section
/-! DEFINITION. The command port: what the next step takes from it (R10, R41, R54, R117). -/

namespace Sys2Proof.Machine

/-- What taking a command word does: decode comes before any effect (R54, R118). -/
def actionOfWord (w : CmdWord) (s : State) : Action :=
  match decode w with
  | .ok i => .run i s
  | .error _ => .stop .reservedEncoding

/-- The next step's action. A faulted run has no further step, whatever the port holds (R117); the block does nothing
unless something arrives (R10); otherwise the next input leaves the port and is handled (R41). -/
def takeInput (s : State) : Action :=
  if s.faulted then .stop .stuckAfterFault
  else match s.port with
    | [] => .idle
    | .resetInput :: rest => .resetInput { s with port := rest }
    | .command w :: rest => actionOfWord w { s with port := rest }

/-- A command word put at the head of the port, where the next step takes it. -/
def pushCommand (w : CmdWord) (s : State) : State := { s with port := .command w :: s.port }

end Sys2Proof.Machine
end

