-- ==== Sys2Proof/Machine/Step.lean ====
section
/-! DEFINITION. One step of the block: one input of the port, handled whole (R10, R40, R41). -/

namespace Sys2Proof.Machine

/-- One step (R10). -/
def step (s : State) : Host.Outcome State Fault Refusal :=
  match takeInput s with
  | .idle => .next s
  | .stop r => .fault r
  | .resetInput t => .next (applyReset t)
  | .run i t => exec i t

/-- The state whose next step runs the command that the table's bits spell: the word stands at the head of the port
(log entry 3). -/
def State.withFetchWord (s : State) (nbits w : Nat) : State := pushCommand (tableWord nbits w) s

end Sys2Proof.Machine
end

