-- ==== Sys2Proof/Machine/Flags.lean ====
section
/-! DEFINITION. What the block has in place of flags. It has no condition codes and no status register (R27, R28); its
status is the three output levels of R12 and the code of each error (R107). -/

namespace Sys2Proof.Machine

/-- `enc_busy`: 1 exactly when `e_state == Payload` (R12, R81). -/
def encBusy (s : State) : Bool := s.enc.eState == .payload

/-- `ck_a_out` (R12, R71). -/
def ckAOut (s : State) : Byte := s.cku.a

/-- `ck_b_out` (R12, R71). -/
def ckBOut (s : State) : Byte := s.cku.b

/-- The number of an error, for a platform that carries errors as numbers (R107). -/
def errorCode : ErrorKind → Byte
  | .invalidLength => 0x01#8
  | .checksumMismatch => 0x02#8
  | .frameTooLarge => 0x03#8

end Sys2Proof.Machine
end

