-- ==== Sys2Proof/Machine/Frame.lean ====
section
/-! DEFINITION. The wire frame as the spec states it apart from any machine: the encoding function (R73) and the valid
frames (R49). The encoder and the parser are claimed to meet these; no meaning calls them. -/

namespace Sys2Proof.Machine

/-- The checksum of a frame: over class, id, both length bytes and payload, in that order (R47, R68). -/
def frameChecksum (cls id : Byte) (n : Half) (payload : List Byte) : Acc :=
  checksum (summedHeader cls id n ++ payload)

/-- The bytes of the frame that carries a payload of at most 65535 bytes (R44). -/
def frameBytes (cls id : Byte) (payload : List Byte) : List Byte :=
  let n : Half := BitVec.ofNat 16 payload.length
  frameHeader cls id n ++ payload ++ ckBytes (frameChecksum cls id n payload)

/-- `EncodeFrame(c, i, p)` (R73, R74). -/
def encodeFrame (cls id : Byte) (payload : List Byte) : Except ErrorKind (List Byte) :=
  if Config.maxFrameLen < payload.length then .error .invalidLength else .ok (frameBytes cls id payload)

/-- The payload length a byte sequence declares, `L = {f[5], f[4]}` (R46, R49). -/
def declaredLen (f : List Byte) : Half := lenOf (f.getD 5 0#8) (f.getD 4 0#8)

/-- A valid frame, condition by condition (R49). -/
def validFrame (f : List Byte) : Bool :=
  let n := (declaredLen f).toNat
  8 ≤ f.length && f[0]? == some Config.sync1 && f[1]? == some Config.sync2 && f.length == 8 + n &&
    f.drop (6 + n) == ckBytes (checksum ((f.drop 2).take (4 + n)))

end Sys2Proof.Machine
end

