-- ==== Sys2Proof/Machine/Stream.lean ====
section
/-! DEFINITION. Sequences of commands: the spec's stream-level rules are stated over them (R79, R95, R96, R131). -/

namespace Sys2Proof.Machine

/-- Commands given one after another, each seeing the state all earlier ones left (R41); it stops at the first that
does not answer a next state (R117). -/
def runInstrs : List Instr → State → Host.Outcome State Fault Refusal
  | [], s => .next s
  | i :: is, s =>
    match exec i s with
    | .next t => runInstrs is t
    | .fault r => .fault r
    | .refused r => .refused r

/-- `ParseStream`: PARSE_BYTE with each byte in order (R96). The events it posts are those appended to the event stream. -/
def parseStream (s : State) (bs : List Byte) : Host.Outcome State Fault Refusal :=
  runInstrs (bs.map Instr.parseByte) s

/-- A stream given to the parser in buffers, one after another (R95, R102). -/
def parseChunks : List (List Byte) → State → Host.Outcome State Fault Refusal
  | [], s => .next s
  | c :: cs, s =>
    match parseStream s c with
    | .next t => parseChunks cs t
    | .fault r => .fault r
    | .refused r => .refused r

/-- Some byte of the sequence completes a sync pair with the byte before it (R103). -/
def hasSyncPair : List Byte → Bool
  | x :: y :: t => (x == Config.sync1 && y == Config.sync2) || hasSyncPair (y :: t)
  | _ => false

/-- An event of the encoder; every other event is the parser's (R106). -/
def Event.ofEncoder : Event → Bool
  | .error .invalidLength => true
  | .error .checksumMismatch => false
  | .error .frameTooLarge => false
  | .frame _ _ _ => false

end Sys2Proof.Machine
end

