-- ==== Sys2Proof/Safety.lean ====
section
/-! DEFINITION. What counts as a safe run: the invariants of R30 and R31, runs and their observation (R134), and the
states that differ only where the spec says "unspecified" (R29). -/

namespace Sys2Proof.Safety

open Sys2Proof.Machine

/-! ## Invariants -/

/-- R30, its first half: an open frame owes at least one payload byte (at most 65535 by the register's width). -/
abbrev EncoderInv (s : State) : Prop := s.enc.eState = .payload → 1 ≤ s.enc.eRemaining.toNat

/-- The payload bytes of the current frame that PBUF holds already: p_len - p_remaining of them in ReadPayload, all of
them in ReadCkA and ReadCkB (R31). -/
def storedCount (s : State) : Nat :=
  match s.rx.pState with
  | .readPayload => s.rx.pLen.toNat - s.rx.pRemaining.toNat
  | .readCkA => s.rx.pLen.toNat
  | .readCkB => s.rx.pLen.toNat
  | _ => 0

/-- The frame's length has been accepted and its end has not been reached (R31). -/
def inBody (s : State) : Bool :=
  s.rx.pState == .readPayload || s.rx.pState == .readCkA || s.rx.pState == .readCkB

/-- R31, with PBUF's canonical form: what must hold for PARSE_BYTE to touch only bytes PBUF has, and to read only
bytes that were written. -/
abbrev ParserInv (s : State) : Prop :=
  s.rx.pbuf.wf ∧ s.rx.pbuf.within s.maxPayload.val ∧
  (s.rx.pState = .readPayload → 1 ≤ s.rx.pRemaining.toNat ∧ s.rx.pRemaining.toNat ≤ s.rx.pLen.toNat) ∧
  (inBody s = true → s.rx.pLen.toNat ≤ s.maxPayload.val) ∧
  (∀ k < storedCount s, (s.rx.pbuf.read k).isSome = true)

/-- Both invariants. -/
abbrev Inv (s : State) : Prop := EncoderInv s ∧ ParserInv s

/-! ## Runs (R134) -/

/-- A step as a run sees it: the first fault sets `faulted` and changes nothing else (R26, R117). -/
def advance (s : State) : State :=
  match step s with
  | .next t => t
  | .fault _ => { s with faulted := true }
  | .refused _ => s

/-- The state after `k` steps of a run. -/
def runSteps : Nat → State → State
  | 0, s => s
  | k + 1, s => runSteps k (advance s)

/-- The run that handles these inputs, from the reset state (R134). -/
def runFromReset (inputs : List PortInput) : State :=
  runSteps inputs.length { State.reset with port := inputs }

/-- A run ends well when no step of it was a fault (R117, R134). -/
def endsWell (inputs : List PortInput) : Prop := (runFromReset inputs).faulted = false

/-- What a run shows: the two streams and the final output levels (R134). -/
structure Observation where
  tx : List Byte
  events : List Event
  encBusy : Bool
  ckA : Byte
  ckB : Byte
deriving DecidableEq, Repr

/-- The observation of a state (R32, R134). -/
def observe (s : State) : Observation :=
  { tx := s.tx, events := s.events, encBusy := encBusy s, ckA := ckAOut s, ckB := ckBOut s }

/-- What a sequence of commands shows: the observation of the state it ends in, or the reason it stops. -/
def observeOutcome : Host.Outcome State Fault Refusal → Host.Outcome Observation Fault Refusal
  | .next s => .next (observe s)
  | .fault r => .fault r
  | .refused r => .refused r

/-! ## What reset leaves unspecified (R29) -/

/-- The two states agree on everything but the registers R29 leaves unspecified after reset (`p_class`, `p_id`, `p_len`,
`p_remaining`, `p_rx_cka`, `PCK`, `PBUF`) and the model's own free-value counter. -/
def AgreeOnSpecified (s t : State) : Prop :=
  s.enc = t.enc ∧ s.rx.pState = t.rx.pState ∧ s.cku = t.cku ∧ s.maxPayload = t.maxPayload ∧
  s.faulted = t.faulted ∧ s.port = t.port ∧ s.tx = t.tx ∧ s.events = t.events

/-- The state has the reset value of every register R29 gives one. -/
def HasResetValues (s : State) : Prop :=
  s.enc.eState = .idle ∧ s.enc.eRemaining = 0#16 ∧ s.enc.eck = Acc.zero ∧ s.rx.pState = .seekSync1 ∧ s.cku = Acc.zero

end Sys2Proof.Safety
end

