-- ==== Sys2Proof/Certificates/Slice0/Obligations.lean ====
section
/-! DEFINITION. The statements about the model, from the numbered rules of the spec. Expected values are written out here
from the rules (numbers, byte lists, record updates), not by calling the operation a meaning is made of. -/

open Sys2Proof Sys2Proof.Machine Sys2Proof.Safety

/-! ## Words and decoding (R50 to R62) -/

/-- Decoding the word of a command gives that command back, every operand at every value (R50, R54, R58). -/
def Obligations.DecodeOfEncodeIsTheCommand : Prop :=
  ∀ i : Instr, decode (encode i) = .ok i

/-- A word that decodes is the word R58 writes for its command: no two words spell one command (R54, R58, R62). -/
def Obligations.EncodeOfDecodeIsTheWord : Prop :=
  ∀ (w : CmdWord) (i : Instr), decode w = .ok i → encode i = w

/-- A word selects a row of R52's table exactly when it decodes to a command of that row's mnemonic; at most one row
matches any word; and a word that no row matches is rejected. -/
def Obligations.DecodeAgreesWithMatchAndMask : Prop :=
  (∀ (w : CmdWord), ∀ r ∈ opRows, w &&& r.mask = r.pattern ↔ ∃ i, decode w = .ok i ∧ i.mnemonic = r.mnemonic) ∧
  (∀ (w : CmdWord), ∀ r ∈ opRows, ∀ r' ∈ opRows,
    w &&& r.mask = r.pattern → w &&& r'.mask = r'.pattern → r = r') ∧
  (∀ (w : CmdWord), (∀ r ∈ opRows, w &&& r.mask ≠ r.pattern) → ∃ e, decode w = .error e)

/-- Words written out bit by bit from R50 and R52 decode to the commands they stand for (a sanity statement). -/
def Obligations.WrittenWordsDecode : Prop :=
  decode 0b0001_00000101_00000001_000000000000_00000000000000000000000000000010#64 = .ok (.encBegin 0x05#8 0x01#8 2#32) ∧
  decode 0b0010_00000000_00000000_000000000000_00000000000000000000000011111111#64 = .ok (.encData 0xFF#8) ∧
  decode 0b0011_00000110_00000001_000000000000_00000000000000000000000000000000#64 = .ok (.encPoll 0x06#8 0x01#8) ∧
  decode 0b0100_00000000_00000000_000000000000_00000000000000000000000010110101#64 = .ok (.parseByte 0xB5#8) ∧
  decode 0b0101_00000000_00000000_000000000000_00000000000000000000000000000000#64 = .ok .ckClear ∧
  decode 0b0110_00000000_00000000_000000000000_00000000000000000000000000000110#64 = .ok (.ckUpdate 0x06#8) ∧
  decode 0b0111_00000000_00000000_000000000000_00000000000000000000000000000000#64 = .ok .reset

/-- R55: a word whose OP is 0x0 or 0x8 to 0xF spells no command, and a step that takes it is Fault(ReservedEncoding)
whatever the state (of a run that has not faulted before, R117). That the word a step takes is the head of `port` is the
model's (log entry 2). -/
def Obligations.ReservedOpcodeFaults : Prop :=
  ∀ (s : State) (w : CmdWord) (rest : List PortInput),
    w.toNat / 2 ^ 60 = 0 ∨ 8 ≤ w.toNat / 2 ^ 60 →
    (∀ i, decode w ≠ .ok i) ∧
    (s.faulted = false → step { s with port := .command w :: rest } = .fault .reservedEncoding)

/-- R56: a word whose OP is assigned and one of whose must-be-zero bits (R53: RSV always; CLASS, ID and OPND[31:8] where
the command takes DATA; OPND in ENC_POLL; bits 59:0 in CK_CLEAR and RESET) is not zero is Fault(ReservedEncoding), and so
is every word that no row of R52's table matches: there is no hint and no custom space. That the word a step takes is the
head of `port` is the model's (log entry 2). -/
def Obligations.NonzeroReservedBitFaults : Prop :=
  (∀ (s : State) (w : CmdWord) (rest : List PortInput), s.faulted = false →
    ((w.extractLsb' 60 4 = 1#4 ∧ w.extractLsb' 32 12 ≠ 0#12) ∨
     (w.extractLsb' 60 4 = 3#4 ∧ (w.extractLsb' 32 12 ≠ 0#12 ∨ w.extractLsb' 0 32 ≠ 0#32)) ∨
     ((w.extractLsb' 60 4 = 2#4 ∨ w.extractLsb' 60 4 = 4#4 ∨ w.extractLsb' 60 4 = 6#4) ∧
       (w.extractLsb' 52 8 ≠ 0#8 ∨ w.extractLsb' 44 8 ≠ 0#8 ∨ w.extractLsb' 32 12 ≠ 0#12 ∨ w.extractLsb' 8 24 ≠ 0#24)) ∨
     ((w.extractLsb' 60 4 = 5#4 ∨ w.extractLsb' 60 4 = 7#4) ∧ w.extractLsb' 0 60 ≠ 0#60)) →
    step { s with port := .command w :: rest } = .fault .reservedEncoding) ∧
  (∀ (s : State) (w : CmdWord) (rest : List PortInput), s.faulted = false → w.wf = false →
    step { s with port := .command w :: rest } = .fault .reservedEncoding)

/-- R58 to R61, with the numbers written out. An assembler refuses cls, id, b or a list's byte above 255 and a len or an n
above 0xFFFFFFFF, and nothing else; the word of each plain line is OP at bit 60, cls at bit 52, id at bit 44 and len or b
at bit 0; ENC_FRAME of n bytes is ENC_BEGIN with n, then ENC_DATA for each byte, and for more than 65535 bytes ENC_BEGIN
alone; PARSE_BUF and CK_BUF are one command a byte. The last five clauses say the pseudo-instructions again in terms of
`encode`, for lists of bytes. -/
def Obligations.AssemblerLinesExpandAsWritten : Prop :=
  (∀ cls id len : Nat, assemble (.encBegin cls id len) =
    if cls ≤ 255 ∧ id ≤ 255 ∧ len ≤ 0xFFFFFFFF then
      some [BitVec.ofNat 64 (0x1 * 2 ^ 60 + cls * 2 ^ 52 + id * 2 ^ 44 + len)] else none) ∧
  (∀ b : Nat, assemble (.encData b) = if b ≤ 255 then some [BitVec.ofNat 64 (0x2 * 2 ^ 60 + b)] else none) ∧
  (∀ cls id : Nat, assemble (.encPoll cls id) =
    if cls ≤ 255 ∧ id ≤ 255 then some [BitVec.ofNat 64 (0x3 * 2 ^ 60 + cls * 2 ^ 52 + id * 2 ^ 44)] else none) ∧
  (∀ b : Nat, assemble (.parseByte b) = if b ≤ 255 then some [BitVec.ofNat 64 (0x4 * 2 ^ 60 + b)] else none) ∧
  assemble .ckClear = some [0x5000000000000000#64] ∧
  (∀ b : Nat, assemble (.ckUpdate b) = if b ≤ 255 then some [BitVec.ofNat 64 (0x6 * 2 ^ 60 + b)] else none) ∧
  assemble .reset = some [0x7000000000000000#64] ∧
  (∀ (cls id : Nat) (p : List Nat), assemble (.encFrame cls id p) =
    if cls ≤ 255 ∧ id ≤ 255 ∧ (∀ b ∈ p, b ≤ 255) ∧ p.length ≤ 0xFFFFFFFF then
      some (BitVec.ofNat 64 (0x1 * 2 ^ 60 + cls * 2 ^ 52 + id * 2 ^ 44 + p.length) ::
        if p.length ≤ 65535 then p.map fun b => BitVec.ofNat 64 (0x2 * 2 ^ 60 + b) else [])
    else none) ∧
  (∀ bs : List Nat, assemble (.parseBuf bs) =
    if ∀ b ∈ bs, b ≤ 255 then some (bs.map fun b => BitVec.ofNat 64 (0x4 * 2 ^ 60 + b)) else none) ∧
  (∀ bs : List Nat, assemble (.ckBuf bs) =
    if ∀ b ∈ bs, b ≤ 255 then some (bs.map fun b => BitVec.ofNat 64 (0x6 * 2 ^ 60 + b)) else none) ∧
  (∀ (cls id : Byte) (p : List Byte), p.length ≤ 65535 →
    assemble (.encFrame cls.toNat id.toNat (p.map BitVec.toNat)) =
      some (encode (.encBegin cls id (BitVec.ofNat 32 p.length)) :: p.map fun b => encode (.encData b))) ∧
  (∀ (cls id : Byte) (p : List Byte), 65535 < p.length → p.length ≤ 0xFFFFFFFF →
    assemble (.encFrame cls.toNat id.toNat (p.map BitVec.toNat)) =
      some [encode (.encBegin cls id (BitVec.ofNat 32 p.length))]) ∧
  (∀ (cls id : Byte) (p : List Byte), 0xFFFFFFFF < p.length →
    assemble (.encFrame cls.toNat id.toNat (p.map BitVec.toNat)) = none) ∧
  (∀ bs : List Byte, assemble (.parseBuf (bs.map BitVec.toNat)) = some (bs.map fun b => encode (.parseByte b))) ∧
  (∀ bs : List Byte, assemble (.ckBuf (bs.map BitVec.toNat)) = some (bs.map fun b => encode (.ckUpdate b)))

/-! ## Steps and runs (R10, R41, R116 to R118, R122, R134) -/

/-- When the word at the head of the port decodes, the step takes it from the port and is `exec` of its command. The port
as a list in State is the model's (log entry 2). -/
def Obligations.StepRunsTheDecodedCommand : Prop :=
  ∀ (s : State) (w : CmdWord) (rest : List PortInput) (i : Instr),
    s.faulted = false → s.port = .command w :: rest → decode w = .ok i → step s = exec i { s with port := rest }

/-- The block does nothing unless a command arrives (R10): with nothing on the port the state stays. That such a step
answers a next state is the model's choice (log entry 2). -/
def Obligations.StepWithNothingOnThePort : Prop :=
  ∀ s : State, s.faulted = false → s.port = [] → step s = .next s

/-- The reset input gives every register R29 lists its reset value, emits no byte, posts no event, and leaves the rest of
the port; the RESET command has the same effect (R122, R123). Nothing is said of what R29 leaves unspecified. That the
reset input is an item of the ordered port, and leaves the rest of it, is the model's (log entries 11 and 2). -/
def Obligations.ResetInputAppliesReset : Prop :=
  ∀ (s : State) (rest : List PortInput), s.faulted = false →
    (∃ t, step { s with port := .resetInput :: rest } = .next t ∧ HasResetValues t ∧
      t.tx = s.tx ∧ t.events = s.events ∧ t.port = rest ∧ t.faulted = false ∧ t.maxPayload = s.maxPayload) ∧
    step { s with port := .command 0x7000000000000000#64 :: rest } = step { s with port := .resetInput :: rest }

/-- R117: the first fault sets `faulted` and changes nothing else; once it is set no input is handled, RESET and the
reset input among them, however long the run; and a run in which a step faulted does not end well. -/
def Obligations.FaultsAreFinal : Prop :=
  (∀ (s : State) (r : Fault), step s = .fault r → advance s = { s with faulted := true }) ∧
  (∀ s : State, s.faulted = true → (∀ t, step s ≠ .next t) ∧ ∀ k, runSteps k s = s) ∧
  (∀ (inputs : List PortInput) (k : Nat) (r : Fault), k < inputs.length →
    step (runSteps k { State.reset with port := inputs }) = .fault r → ¬ endsWell inputs)

/-- Commands given over the port, one word a step, do what the commands do one after another (R41): the machine's own run
over the port is `runInstrs`. The port as a list in State is the model's (log entry 2). -/
def Obligations.PortRunIsCommandRun : Prop :=
  ∀ (s : State) (cmds : List Instr) (rest : List PortInput), s.faulted = false →
    Host.Core.run Sys2Proof.core cmds.length
        ({ s with port := (cmds.map fun i => PortInput.command (encode i)) ++ rest } : State) =
      runInstrs cmds { s with port := rest }

/-- R116: the two encoder faults are raised exactly where the encoder's sequence is broken, no other command faults, and
a step's only other fault is ReservedEncoding for a word that does not decode; a fault emits no byte and posts no event.
The parser invariant (R31) rules out the states in which PARSE_BYTE would leave PBUF (log entry 8). -/
def Obligations.FaultsExactlyOnHostMisuse : Prop :=
  (∀ (i : Instr) (s : State) (r : Fault), ParserInv s →
    (exec i s = .fault r ↔
      (r = .encFrameOpen ∧ s.enc.eState = .payload ∧
        ((∃ cls id len, i = .encBegin cls id len) ∨ ∃ cls id, i = .encPoll cls id)) ∨
      (r = .encNoFrame ∧ s.enc.eState = .idle ∧ ∃ b, i = .encData b))) ∧
  (∀ (s : State) (w : CmdWord) (rest : List PortInput) (r : Fault), s.faulted = false →
    s.port = .command w :: rest →
    (step s = .fault r ↔
      (r = .reservedEncoding ∧ w.wf = false) ∨ ∃ i, decode w = .ok i ∧ exec i { s with port := rest } = .fault r)) ∧
  (∀ (s : State) (r : Fault), step s = .fault r → (advance s).tx = s.tx ∧ (advance s).events = s.events)

/-- R118: decode comes first, whatever the state; then the open-frame check, so an ENC_BEGIN of too long a request while
a frame is open faults and posts no InvalidLength. That the word a step takes is the head of `port` is the model's (log
entry 2). -/
def Obligations.DecodeThenOpenFrameThenLength : Prop :=
  (∀ (s : State) (w : CmdWord) (rest : List PortInput), s.faulted = false → (∀ i, decode w ≠ .ok i) →
    step { s with port := .command w :: rest } = .fault .reservedEncoding) ∧
  (∀ (s : State) (cls id : Byte) (len : LenReq), s.enc.eState = .payload → 65535 < len.toNat →
    exec (.encBegin cls id len) s = .fault .encFrameOpen)

/-! ## The checksum accumulator (R63 to R72) -/

/-- R69: CK_CLEAR clears CKU and does nothing else, in every state; its word; and a word of its OP with any other bit set
is rejected. -/
def Obligations.CkClearClearsCku : Prop :=
  (∀ s : State, exec .ckClear s = .next { s with cku := ⟨0#8, 0#8⟩ }) ∧
  encode .ckClear = 0x5000000000000000#64 ∧
  (∀ w : CmdWord, w.extractLsb' 60 4 = 5#4 → w.extractLsb' 0 60 ≠ 0#60 → ∃ e, decode w = .error e)

/-- R70: CK_UPDATE adds the byte to CKU.A and the updated CKU.A to CKU.B, both modulo 256, and does nothing else; a zero
byte leaves CKU.A; 256 updates with 0x01 from (0, 0) give (0x00, 0x80); its word and its must-be-zero bits. -/
def Obligations.CkUpdateAddsToCku : Prop :=
  (∀ (b : Byte) (s : State), exec (.ckUpdate b) s =
    .next { s with cku := ⟨BitVec.ofNat 8 ((s.cku.a.toNat + b.toNat) % 256),
                            BitVec.ofNat 8 ((s.cku.b.toNat + (s.cku.a.toNat + b.toNat) % 256) % 256)⟩ }) ∧
  (∀ s : State, exec (.ckUpdate 0#8) s = .next { s with cku := ⟨s.cku.a, s.cku.b + s.cku.a⟩ }) ∧
  (∀ s : State, s.cku = ⟨0#8, 0#8⟩ →
    runInstrs (List.replicate 256 (.ckUpdate 1#8)) s = .next { s with cku := ⟨0x00#8, 0x80#8⟩ }) ∧
  (∀ b : Byte, encode (.ckUpdate b) = 0x6000000000000000#64 ||| b.setWidth 64) ∧
  (∀ w : CmdWord, w.extractLsb' 60 4 = 6#4 → w.extractLsb' 8 52 ≠ 0#52 → ∃ e, decode w = .error e)

/-- R67: what `CkUpdate` over a sequence leaves, in closed form, from any start; CK_A does not depend on the order of the
bytes and CK_B does; a zero byte leaves A and adds A to B; a checksum may be computed over any split of its input. -/
def Obligations.ChecksumClosedForm : Prop :=
  (∀ (x : Acc) (s : List Byte),
    (x.updateAll s).a.toNat =
      (x.a.toNat + ∑ i ∈ Finset.range s.length, (s.getD i 0#8).toNat) % 256 ∧
    (x.updateAll s).b.toNat =
      (x.b.toNat + s.length * x.a.toNat +
        ∑ i ∈ Finset.range s.length, (s.length - i) * (s.getD i 0#8).toNat) % 256) ∧
  (∀ s t : List Byte, s.Perm t → (checksum s).a = (checksum t).a) ∧
  (∃ s t : List Byte, s.Perm t ∧ (checksum s).b ≠ (checksum t).b) ∧
  (∀ x : Acc, x.update 0#8 = ⟨x.a, x.b + x.a⟩) ∧
  (∀ s t : List Byte, checksum (s ++ t) = (checksum s).updateAll t)

/-- R71: after CK_CLEAR and CK_UPDATE with each byte of a sequence, the CKU outputs read its checksum, from every state;
nothing else has changed. -/
def Obligations.CkuOutputsReadTheChecksum : Prop :=
  ∀ (s : State) (bs : List Byte), ∃ t,
    runInstrs (.ckClear :: bs.map .ckUpdate) s = .next t ∧ ckAOut t = (checksum bs).a ∧ ckBOut t = (checksum bs).b ∧
    t = { s with cku := checksum bs }

/-! ## The encoder (R73 to R83) -/

/-- R76, case by case: with a frame open a fault; else, a request above 65535 posts InvalidLength and changes nothing
else; a request of 0 emits the whole 8-byte frame and stays Idle, as ENC_POLL does; any other emits the 6-byte header and
opens the frame, with ECK summed over the class, the id and the two length bytes. Its word; RSV must be zero. -/
def Obligations.EncBeginOpensAFrame : Prop :=
  ∀ (s : State) (cls id : Byte) (len : LenReq),
    (s.enc.eState = .payload → exec (.encBegin cls id len) s = .fault .encFrameOpen) ∧
    (s.enc.eState = .idle → 65535 < len.toNat →
      exec (.encBegin cls id len) s = .next { s with events := s.events ++ [.error .invalidLength] }) ∧
    (s.enc.eState = .idle → len = 0#32 →
      exec (.encBegin cls id len) s = exec (.encPoll cls id) s ∧
      exec (.encBegin cls id len) s = .next { s with
        enc := { s.enc with eck := checksum [cls, id, 0x00#8, 0x00#8] }
        tx := s.tx ++ [0xB5#8, 0x62#8, cls, id, 0x00#8, 0x00#8,
          (checksum [cls, id, 0x00#8, 0x00#8]).a, (checksum [cls, id, 0x00#8, 0x00#8]).b] }) ∧
    (s.enc.eState = .idle → 1 ≤ len.toNat → len.toNat ≤ 65535 →
      let lo : Byte := BitVec.ofNat 8 (len.toNat % 256)
      let hi : Byte := BitVec.ofNat 8 (len.toNat / 256)
      exec (.encBegin cls id len) s = .next { s with
        enc := { eState := .payload, eRemaining := BitVec.ofNat 16 len.toNat, eck := checksum [cls, id, lo, hi] }
        tx := s.tx ++ [0xB5#8, 0x62#8, cls, id, lo, hi] }) ∧
    encode (.encBegin cls id len) =
      0x1000000000000000#64 ||| cls.setWidth 64 <<< 52 ||| id.setWidth 64 <<< 44 ||| len.setWidth 64 ∧
    (∀ w : CmdWord, w.extractLsb' 60 4 = 1#4 → w.extractLsb' 32 12 ≠ 0#12 → ∃ e, decode w = .error e)

/-- R77, case by case: with no frame open a fault; while more than one byte is owed, the byte is emitted and summed; the
last byte owed is followed by CK_A and CK_B and closes the frame. Its word; every bit but OP and DATA must be zero. That
at least one byte is owed while a frame is open is R30's. -/
def Obligations.EncDataSendsAPayloadByte : Prop :=
  ∀ (s : State) (b : Byte),
    let a' : Byte := s.enc.eck.a + b
    let b' : Byte := s.enc.eck.b + a'
    (s.enc.eState = .idle → exec (.encData b) s = .fault .encNoFrame) ∧
    (s.enc.eState = .payload → 2 ≤ s.enc.eRemaining.toNat →
      exec (.encData b) s = .next { s with
        enc := { eState := .payload, eRemaining := BitVec.ofNat 16 (s.enc.eRemaining.toNat - 1), eck := ⟨a', b'⟩ }
        tx := s.tx ++ [b] }) ∧
    (s.enc.eState = .payload → s.enc.eRemaining.toNat = 1 →
      exec (.encData b) s = .next { s with
        enc := { eState := .idle, eRemaining := 0#16, eck := ⟨a', b'⟩ }
        tx := s.tx ++ [b, a', b'] }) ∧
    encode (.encData b) = 0x2000000000000000#64 ||| b.setWidth 64 ∧
    (∀ w : CmdWord, w.extractLsb' 60 4 = 2#4 → w.extractLsb' 8 52 ≠ 0#52 → ∃ e, decode w = .error e)

/-- R78: with a frame open a fault; from Idle the 8 bytes of the empty frame, its checksum (cls + id, 4 cls + 3 id), the
encoder still Idle and nothing else changed. Its word; RSV and OPND must be zero. -/
def Obligations.EncPollSendsAnEmptyFrame : Prop :=
  ∀ (s : State) (cls id : Byte),
    let a : Byte := BitVec.ofNat 8 (cls.toNat + id.toNat)
    let b : Byte := BitVec.ofNat 8 (4 * cls.toNat + 3 * id.toNat)
    (s.enc.eState = .payload → exec (.encPoll cls id) s = .fault .encFrameOpen) ∧
    (s.enc.eState = .idle → exec (.encPoll cls id) s = .next { s with
      enc := { s.enc with eck := ⟨a, b⟩ }
      tx := s.tx ++ [0xB5#8, 0x62#8, cls, id, 0x00#8, 0x00#8, a, b] }) ∧
    encode (.encPoll cls id) = 0x3000000000000000#64 ||| cls.setWidth 64 <<< 52 ||| id.setWidth 64 <<< 44 ∧
    (∀ w : CmdWord, w.extractLsb' 60 4 = 3#4 → (w.extractLsb' 32 12 ≠ 0#12 ∨ w.extractLsb' 0 32 ≠ 0#32) →
      ∃ e, decode w = .error e)

/-- R79: from Idle, ENC_BEGIN c, i, n and an ENC_DATA for each of the n payload bytes, with any PARSE_BYTE, CK_CLEAR and
CK_UPDATE commands between and around them, fault nothing, post no encoder event, leave the encoder Idle, and append
exactly EncodeFrame(c, i, p) to the TX stream; a payload of more than 65535 bytes posts InvalidLength and emits nothing,
as EncodeFrame does. The parser invariant (R31) stands for the PARSE_BYTE commands between. -/
def Obligations.StreamedEncodingIsEncodeFrame : Prop :=
  (∀ (s : State) (c i : Byte) (p : List Byte) (cmds : List Instr),
    s.enc.eState = .idle → ParserInv s → p.length ≤ 65535 →
    (∀ x ∈ cmds, x ≠ .reset) →
    cmds.filter Instr.isEncoder = .encBegin c i (BitVec.ofNat 32 p.length) :: p.map .encData →
    ∃ t bs, runInstrs cmds s = .next t ∧ encodeFrame c i p = .ok bs ∧ t.enc.eState = .idle ∧ t.tx = s.tx ++ bs ∧
      ∃ posted, t.events = s.events ++ posted ∧ ∀ e ∈ posted, e.ofEncoder = false) ∧
  (∀ (s : State) (c i : Byte) (p : List Byte),
    s.enc.eState = .idle → 65535 < p.length → p.length ≤ 0xFFFFFFFF →
    encodeFrame c i p = .error .invalidLength ∧
    exec (.encBegin c i (BitVec.ofNat 32 p.length)) s = .next { s with events := s.events ++ [.error .invalidLength] })

/-- R80: ENC_POLL from Idle appends exactly EncodeFrame(c, i, []) to the TX stream. -/
def Obligations.PollIsTheEmptyFrame : Prop :=
  ∀ (s : State) (c i : Byte), s.enc.eState = .idle →
    ∃ t bs, exec (.encPoll c i) s = .next t ∧ encodeFrame c i [] = .ok bs ∧ t.tx = s.tx ++ bs

/-- R81: `enc_busy` is 1 exactly in Payload; it rises at an ENC_BEGIN with 1 to 65535 and falls at the ENC_DATA of the
last payload byte or at reset, and at nothing else; a host that watches it causes no encoder fault. -/
def Obligations.EncBusyTellsWhetherAFrameIsOpen : Prop :=
  (∀ s : State, encBusy s = true ↔ s.enc.eState = .payload) ∧
  (∀ (i : Instr) (s t : State), exec i s = .next t → encBusy s = false →
    (encBusy t = true ↔ ∃ cls id len, i = .encBegin cls id len ∧ 1 ≤ len.toNat ∧ len.toNat ≤ 65535)) ∧
  (∀ (i : Instr) (s t : State), EncoderInv s → exec i s = .next t → encBusy s = true →
    (encBusy t = false ↔ i = .reset ∨ (s.enc.eRemaining = 1#16 ∧ ∃ b, i = .encData b))) ∧
  (∀ (s : State) (cls id : Byte) (len : LenReq), encBusy s = false →
    (∃ t, exec (.encBegin cls id len) s = .next t) ∧ ∃ t, exec (.encPoll cls id) s = .next t) ∧
  (∀ (s : State) (b : Byte), encBusy s = true → ∃ t, exec (.encData b) s = .next t)

/-- R82: an ENC_BEGIN that posts InvalidLength leaves the encoder's registers as they were and emits nothing, and the
next ENC_BEGIN or ENC_POLL is accepted at once. -/
def Obligations.InvalidLengthChangesNoEncoderState : Prop :=
  ∀ (s : State) (cls id : Byte) (len : LenReq), s.enc.eState = .idle → 65535 < len.toNat →
    ∃ t, exec (.encBegin cls id len) s = .next t ∧ t.events = s.events ++ [.error .invalidLength] ∧
      t.enc.eState = s.enc.eState ∧ t.enc.eRemaining = s.enc.eRemaining ∧ t.enc.eck = s.enc.eck ∧ t.tx = s.tx ∧
      (∀ cls' id' len', ∃ u, exec (.encBegin cls' id' len') t = .next u) ∧
      ∀ cls' id', ∃ u, exec (.encPoll cls' id') t = .next u

/-- R83: a complete frame has 8 + n bytes; per step, ENC_BEGIN emits 0, 6 or 8 bytes by its request, ENC_DATA 1 byte or 3
for the last, ENC_POLL 8, and no other command emits any. -/
def Obligations.EncoderOutputSizes : Prop :=
  (∀ (c i : Byte) (p bs : List Byte), encodeFrame c i p = .ok bs → bs.length = 8 + p.length) ∧
  (∀ (s t : State) (cls id : Byte) (len : LenReq), exec (.encBegin cls id len) s = .next t →
    t.tx.length = s.tx.length + (if 65535 < len.toNat then 0 else if len.toNat = 0 then 8 else 6)) ∧
  (∀ (s t : State) (b : Byte), EncoderInv s → exec (.encData b) s = .next t →
    t.tx.length = s.tx.length + (if s.enc.eRemaining.toNat = 1 then 3 else 1)) ∧
  (∀ (s t : State) (cls id : Byte), exec (.encPoll cls id) s = .next t → t.tx.length = s.tx.length + 8) ∧
  (∀ (i : Instr) (s t : State), i.isEncoder = false → exec i s = .next t → t.tx = s.tx)

/-! ## The parser, arm by arm (R84 to R94) -/

/-- R85: in SeekSync1, 0xB5 moves to SeekSync2; every other byte changes nothing; no event. -/
def Obligations.SeekSync1WaitsForB5 : Prop :=
  ∀ (s : State) (b : Byte), s.rx.pState = .seekSync1 →
    exec (.parseByte b) s =
      .next (if b = 0xB5#8 then { s with rx := { s.rx with pState := .seekSync2 } } else s)

/-- R86: in SeekSync2, 0x62 clears PCK and moves to ReadClass; 0xB5 stays; every other byte returns to SeekSync1; no
event. So the stream B5 B5 62 is one sync pair that ends at the 62. -/
def Obligations.SeekSync2WaitsFor62 : Prop :=
  (∀ (s : State) (b : Byte), s.rx.pState = .seekSync2 →
    exec (.parseByte b) s =
      .next (if b = 0x62#8 then { s with rx := { s.rx with pState := .readClass, pck := ⟨0#8, 0#8⟩ } }
        else if b = 0xB5#8 then s
        else { s with rx := { s.rx with pState := .seekSync1 } })) ∧
  (∀ s : State, s.rx.pState = .seekSync1 →
    parseStream s [0xB5#8, 0xB5#8, 0x62#8] =
      .next { s with rx := { s.rx with pState := .readClass, pck := ⟨0#8, 0#8⟩ } })

/-- R87, R88: the byte in ReadClass is the class and the byte in ReadId the id, whatever its value; it is summed. -/
def Obligations.ClassAndIdBytesAreTaken : Prop :=
  ∀ (s : State) (b : Byte),
    (s.rx.pState = .readClass → exec (.parseByte b) s =
      .next { s with rx := { s.rx with
        pState := .readId, pClass := b, pck := ⟨s.rx.pck.a + b, s.rx.pck.b + (s.rx.pck.a + b)⟩ } }) ∧
    (s.rx.pState = .readId → exec (.parseByte b) s =
      .next { s with rx := { s.rx with
        pState := .readLenLo, pId := b, pck := ⟨s.rx.pck.a + b, s.rx.pck.b + (s.rx.pck.a + b)⟩ } })

/-- R89: the byte in ReadLenLo replaces `p_len[7:0]` and is summed; next ReadLenHi. -/
def Obligations.LengthLowByteIsTaken : Prop :=
  ∀ (s : State) (b : Byte), s.rx.pState = .readLenLo →
    exec (.parseByte b) s =
      .next { s with rx := { s.rx with
        pState := .readLenHi, pLen := BitVec.ofNat 16 (s.rx.pLen.toNat / 256 * 256 + b.toNat)
        pck := ⟨s.rx.pck.a + b, s.rx.pck.b + (s.rx.pck.a + b)⟩ } }

/-- R90: the byte in ReadLenHi completes the length L and is summed; L above MAX_PAYLOAD posts FrameTooLarge and returns
to SeekSync1; L = 0 goes to ReadCkA; any other L to ReadPayload with L bytes to come. No PBUF byte is written. -/
def Obligations.LengthHighByteIsChecked : Prop :=
  ∀ (s : State) (b : Byte), s.rx.pState = .readLenHi →
    let n : Nat := b.toNat * 256 + s.rx.pLen.toNat % 256
    let ck : Acc := ⟨s.rx.pck.a + b, s.rx.pck.b + (s.rx.pck.a + b)⟩
    exec (.parseByte b) s =
      .next (if s.maxPayload.val < n then
          { s with
            rx := { s.rx with pState := .seekSync1, pLen := BitVec.ofNat 16 n, pck := ck }
            events := s.events ++ [.error .frameTooLarge] }
        else if n = 0 then { s with rx := { s.rx with pState := .readCkA, pLen := 0#16, pck := ck } }
        else { s with rx := { s.rx with
          pState := .readPayload, pLen := BitVec.ofNat 16 n, pRemaining := BitVec.ofNat 16 n, pck := ck } })

/-- R91: the byte in ReadPayload is stored at k = p_len - p_remaining and summed, one byte fewer remains, and the next
state is ReadCkA when none does. The premises are R31's bounds on the counters, which rule out the states no run
reaches. -/
def Obligations.PayloadByteIsStored : Prop :=
  ∀ (s : State) (b : Byte), s.rx.pState = .readPayload →
    1 ≤ s.rx.pRemaining.toNat → s.rx.pRemaining.toNat ≤ s.rx.pLen.toNat → s.rx.pLen.toNat ≤ s.maxPayload.val →
    ∃ m : Memory,
      exec (.parseByte b) s =
        .next { s with rx := { s.rx with
          pState := if s.rx.pRemaining.toNat = 1 then .readCkA else .readPayload
          pRemaining := BitVec.ofNat 16 (s.rx.pRemaining.toNat - 1)
          pck := ⟨s.rx.pck.a + b, s.rx.pck.b + (s.rx.pck.a + b)⟩
          pbuf := m } } ∧
      m.read (s.rx.pLen.toNat - s.rx.pRemaining.toNat) = some b ∧
      ∀ a, a ≠ s.rx.pLen.toNat - s.rx.pRemaining.toNat → m.read a = s.rx.pbuf.read a

/-- R92: the byte in ReadCkA is kept in `p_rx_cka`, whatever its value, not compared and not summed; next ReadCkB. -/
def Obligations.CkAByteIsKept : Prop :=
  ∀ (s : State) (b : Byte), s.rx.pState = .readCkA →
    exec (.parseByte b) s = .next { s with rx := { s.rx with pState := .readCkB, pRxCka := b } }

/-- R93, R94: in ReadCkB, if the kept CK_A and this byte are PCK's, the frame is posted with the payload bytes PBUF holds
at 0 to p_len - 1; otherwise ChecksumMismatch is posted; both return to SeekSync1 and change nothing else. The premise
that PBUF holds the payload p is R31's. -/
def Obligations.CkBByteSettlesTheFrame : Prop :=
  (∀ (s : State) (b : Byte) (p : List Byte), s.rx.pState = .readCkB →
    s.rx.pLen.toNat ≤ s.maxPayload.val → p.length = s.rx.pLen.toNat →
    (∀ k < p.length, s.rx.pbuf.read k = p[k]?) →
    s.rx.pRxCka = s.rx.pck.a → b = s.rx.pck.b →
    exec (.parseByte b) s = .next { s with
      rx := { s.rx with pState := .seekSync1 }
      events := s.events ++ [.frame s.rx.pClass s.rx.pId p] }) ∧
  (∀ (s : State) (b : Byte), s.rx.pState = .readCkB → (s.rx.pRxCka ≠ s.rx.pck.a ∨ b ≠ s.rx.pck.b) →
    exec (.parseByte b) s = .next { s with
      rx := { s.rx with pState := .seekSync1 }
      events := s.events ++ [.error .checksumMismatch] })

/-! ## The parser over streams (R95 to R104) -/

/-- R97: no class or id value changes any arm. Two parsers that differ only in the class and id they hold take a byte
alike, and a frame event differs only in those two fields. -/
def Obligations.ClassAndIdNeverSteerTheParser : Prop :=
  ∀ (s t : State) (b c i : Byte), exec (.parseByte b) s = .next t →
    ∃ u, exec (.parseByte b) { s with rx := { s.rx with pClass := c, pId := i } } = .next u ∧
      u.rx.pState = t.rx.pState ∧ u.rx.pLen = t.rx.pLen ∧ u.rx.pRemaining = t.rx.pRemaining ∧
      u.rx.pRxCka = t.rx.pRxCka ∧ u.rx.pck = t.rx.pck ∧ u.rx.pbuf = t.rx.pbuf ∧
      ((u.events = s.events ∧ t.events = s.events) ∨
       (∃ e, u.events = s.events ++ [.error e] ∧ t.events = s.events ++ [.error e]) ∨
       (∃ p, u.events = s.events ++ [.frame c i p] ∧ t.events = s.events ++ [.frame s.rx.pClass s.rx.pId p]))

/-- R98: once the sync pair is accepted, the next 6 + L bytes are frame fields whatever their values (4 when the length
is rejected): no event and no search before the last of them, at which one event settles the frame and the search
resumes. -/
def Obligations.FrameFieldsAreNeverSync : Prop :=
  (∀ (s : State) (c i lo hi : Byte) (p : List Byte) (ka kb : Byte), s.rx.pState = .readClass →
    p.length = hi.toNat * 256 + lo.toNat → p.length ≤ s.maxPayload.val →
    let f := [c, i, lo, hi] ++ p ++ [ka, kb]
    (∀ k < 6 + p.length, ∃ u, parseStream s (f.take k) = .next u ∧ u.events = s.events ∧
      u.rx.pState ≠ .seekSync1 ∧ u.rx.pState ≠ .seekSync2) ∧
    ∃ t, parseStream s f = .next t ∧ t.rx.pState = .seekSync1 ∧
      t.events = s.events ++ [if s.rx.pck.updateAll ([c, i, lo, hi] ++ p) = ⟨ka, kb⟩ then .frame c i p
        else .error .checksumMismatch]) ∧
  (∀ (s : State) (c i lo hi : Byte), s.rx.pState = .readClass → s.maxPayload.val < hi.toNat * 256 + lo.toNat →
    (∀ k < 4, ∃ u, parseStream s ([c, i, lo, hi].take k) = .next u ∧ u.events = s.events ∧
      u.rx.pState ≠ .seekSync1 ∧ u.rx.pState ≠ .seekSync2) ∧
    ∃ t, parseStream s [c, i, lo, hi] = .next t ∧ t.rx.pState = .seekSync1 ∧
      t.events = s.events ++ [.error .frameTooLarge])

/-- R99: every state accepts every byte; every error returns the parser to SeekSync1; and from any in-frame state the
parser is back in SeekSync1 after at most 6 + MAX_PAYLOAD further bytes, whatever they are. -/
def Obligations.ParserIsNeverStuck : Prop :=
  (∀ (s : State) (b : Byte), ParserInv s → ∃ t, exec (.parseByte b) s = .next t) ∧
  (∀ (s t : State) (b : Byte) (e : ErrorKind), exec (.parseByte b) s = .next t →
    t.events = s.events ++ [.error e] → t.rx.pState = .seekSync1) ∧
  (∀ (s : State) (bs : List Byte), ParserInv s → s.rx.pState ≠ .seekSync1 → s.rx.pState ≠ .seekSync2 →
    bs.length = 6 + s.maxPayload.val →
    ∃ k t, k ≤ bs.length ∧ parseStream s (bs.take k) = .next t ∧ t.rx.pState = .seekSync1)

/-- R100: the parser stores at most MAX_PAYLOAD bytes; and a length of 0xFFFF gives FrameTooLarge at its high byte, with
nothing stored, unless MAX_PAYLOAD is 65535, where the parser waits for 65535 bytes. -/
def Obligations.BufferingIsBounded : Prop :=
  (∀ s : State, ParserInv s → s.rx.pbuf.length ≤ s.maxPayload.val) ∧
  (∀ s : State, s.rx.pState = .readLenHi → s.rx.pLen.toNat % 256 = 0xFF → s.maxPayload.val < 65535 →
    ∃ t, exec (.parseByte 0xFF#8) s = .next t ∧ t.events = s.events ++ [.error .frameTooLarge] ∧
      t.rx.pState = .seekSync1 ∧ t.rx.pbuf = s.rx.pbuf) ∧
  (∀ s : State, s.rx.pState = .readLenHi → s.rx.pLen.toNat % 256 = 0xFF → s.maxPayload.val = 65535 →
    ∃ t, exec (.parseByte 0xFF#8) s = .next t ∧ t.events = s.events ∧
      t.rx.pState = .readPayload ∧ t.rx.pRemaining = 65535#16)

/-- R101: from either sync-seeking state, parsing EncodeFrame(c, i, p) with len(p) at most MAX_PAYLOAD posts exactly one
event, Frame(c, i, p), at the last byte, and ends in SeekSync1; a longer payload posts FrameTooLarge at the sixth byte. -/
def Obligations.ParseOfEncodedFrameIsTheFrame : Prop :=
  (∀ (s : State) (c i : Byte) (p f : List Byte), s.rx.pState = .seekSync1 ∨ s.rx.pState = .seekSync2 →
    p.length ≤ s.maxPayload.val → encodeFrame c i p = .ok f →
    (∃ u, parseStream s f.dropLast = .next u ∧ u.events = s.events) ∧
    ∃ t, parseStream s f = .next t ∧ t.events = s.events ++ [.frame c i p] ∧ t.rx.pState = .seekSync1) ∧
  (∀ (s : State) (c i : Byte) (p f : List Byte), s.rx.pState = .seekSync1 ∨ s.rx.pState = .seekSync2 →
    s.maxPayload.val < p.length → encodeFrame c i p = .ok f →
    (∃ u, parseStream s (f.take 5) = .next u ∧ u.events = s.events) ∧
    ∃ t, parseStream s (f.take 6) = .next t ∧ t.events = s.events ++ [.error .frameTooLarge] ∧
      t.rx.pState = .seekSync1)

/-- R102: a stream parsed in chunks ends as the unsplit stream does, for any split; and an encoded frame with a payload of
at most MAX_PAYLOAD bytes, split into chunks in any way and given from either sync-seeking state, gives exactly one event,
that frame, and leaves the parser in SeekSync1. -/
def Obligations.ChunksDoNotMatter : Prop :=
  (∀ (chunks : List (List Byte)) (s : State), parseChunks chunks s = parseStream s chunks.flatten) ∧
  (∀ (s : State) (c i : Byte) (p f : List Byte) (chunks : List (List Byte)),
    s.rx.pState = .seekSync1 ∨ s.rx.pState = .seekSync2 → p.length ≤ s.maxPayload.val → encodeFrame c i p = .ok f →
    chunks.flatten = f →
    ∃ t, parseChunks chunks s = .next t ∧ t.events = s.events ++ [.frame c i p] ∧ t.rx.pState = .seekSync1)

/-- R103: from SeekSync1, bytes none of which completes a sync pair, then a frame of a payload of at most MAX_PAYLOAD
bytes, give exactly that frame. -/
def Obligations.NoiseBeforeAFrameIsIgnored : Prop :=
  ∀ (s : State) (noise : List Byte) (c i : Byte) (p f : List Byte), s.rx.pState = .seekSync1 →
    hasSyncPair noise = false → p.length ≤ s.maxPayload.val → encodeFrame c i p = .ok f →
    ∃ t, parseStream s (noise ++ f) = .next t ∧ t.events = s.events ++ [.frame c i p] ∧ t.rx.pState = .seekSync1

/-- R104: a frame whose last byte is any other value posts exactly one event, ChecksumMismatch, at that byte, and ends in
SeekSync1, and a valid frame that follows at once is parsed. -/
def Obligations.CorruptionIsRecoveredFrom : Prop :=
  ∀ (s : State) (c i : Byte) (p f : List Byte) (x : Byte), s.rx.pState = .seekSync1 →
    p.length ≤ s.maxPayload.val → encodeFrame c i p = .ok f → f.getLast? ≠ some x →
    (∃ u, parseStream s f.dropLast = .next u ∧ u.events = s.events) ∧
    ∃ t, parseStream s (f.dropLast ++ [x]) = .next t ∧ t.events = s.events ++ [.error .checksumMismatch] ∧
      t.rx.pState = .seekSync1 ∧
      ∀ (c' i' : Byte) (p' f' : List Byte), p'.length ≤ s.maxPayload.val → encodeFrame c' i' p' = .ok f' →
        ∃ v, parseStream t f' = .next v ∧ v.events = s.events ++ [.error .checksumMismatch, .frame c' i' p'] ∧
          v.rx.pState = .seekSync1

/-- R49: the valid frames are exactly what EncodeFrame gives, and the parser posts each one whose length is at most
MAX_PAYLOAD as the frame it spells. -/
def Obligations.ValidFramesAreTheEncodedOnes : Prop :=
  (∀ f : List Byte, validFrame f = true ↔ ∃ c i p, encodeFrame c i p = .ok f) ∧
  (∀ (s : State) (f : List Byte), s.rx.pState = .seekSync1 ∨ s.rx.pState = .seekSync2 → validFrame f = true →
    (declaredLen f).toNat ≤ s.maxPayload.val →
    ∃ t, parseStream s f = .next t ∧ t.rx.pState = .seekSync1 ∧
      t.events = s.events ++
        [.frame (f.getD 2 0#8) (f.getD 3 0#8) ((f.drop 6).take (declaredLen f).toNat)])

/-! ## Events, outputs and reset (R105 to R113, R123, R124) -/

/-- R105: RESET, in every state: the reset values of R29, no TX byte taken back or added, no event; the same effect as the
reset input; no way out of a fault; its word and its must-be-zero bits. Nothing is said of what R29 leaves unspecified.
That the reset input is an item of the port is the model's (log entries 11 and 2). -/
def Obligations.ResetCommandResetsTheBlock : Prop :=
  (∀ s : State, ∃ t, exec .reset s = .next t ∧
    t.enc.eState = .idle ∧ t.enc.eRemaining = 0#16 ∧ t.enc.eck = ⟨0#8, 0#8⟩ ∧ t.rx.pState = .seekSync1 ∧
    t.cku = ⟨0#8, 0#8⟩ ∧ t.tx = s.tx ∧ t.events = s.events ∧ t.maxPayload = s.maxPayload ∧ t.port = s.port ∧
    t.faulted = s.faulted) ∧
  (∀ (s : State) (rest : List PortInput),
    step { s with port := .command 0x7000000000000000#64 :: rest } = step { s with port := .resetInput :: rest }) ∧
  (∀ (s : State) (rest : List PortInput), s.faulted = true →
    ∀ t, step { s with port := .command 0x7000000000000000#64 :: rest } ≠ .next t) ∧
  encode .reset = 0x7000000000000000#64 ∧
  (∀ w : CmdWord, w.extractLsb' 60 4 = 7#4 → w.extractLsb' 0 60 ≠ 0#60 → ∃ e, decode w = .error e)

/-- R106: which command posts which event, and when; a frame event carries p_len payload bytes, at most MAX_PAYLOAD. -/
def Obligations.EventsArePostedByTheirCommands : Prop :=
  (∀ (i : Instr) (s t : State) (c d : Byte) (p : List Byte), exec i s = .next t →
    t.events = s.events ++ [.frame c d p] →
    (∃ b, i = .parseByte b ∧ s.rx.pState = .readCkB ∧ s.rx.pRxCka = s.rx.pck.a ∧ b = s.rx.pck.b) ∧
    c = s.rx.pClass ∧ d = s.rx.pId ∧ p.length = s.rx.pLen.toNat ∧ p.length ≤ s.maxPayload.val) ∧
  (∀ (i : Instr) (s t : State), exec i s = .next t →
    (t.events = s.events ++ [.error .invalidLength] ↔ ∃ cls id len, i = .encBegin cls id len ∧ 65535 < len.toNat)) ∧
  (∀ (i : Instr) (s t : State), exec i s = .next t →
    (t.events = s.events ++ [.error .checksumMismatch] ↔
      ∃ b, i = .parseByte b ∧ s.rx.pState = .readCkB ∧ ¬ (s.rx.pRxCka = s.rx.pck.a ∧ b = s.rx.pck.b))) ∧
  (∀ (i : Instr) (s t : State), exec i s = .next t →
    (t.events = s.events ++ [.error .frameTooLarge] ↔
      ∃ b, i = .parseByte b ∧ s.rx.pState = .readLenHi ∧
        s.maxPayload.val < b.toNat * 256 + s.rx.pLen.toNat % 256))

/-- R113: a step posts at most one event, and no step both emits TX bytes and posts one. -/
def Obligations.AtMostOneEventAndNeverWithBytes : Prop :=
  ∀ s t : State, step s = .next t →
    t.events = s.events ∨ ∃ e, t.events = s.events ++ [e] ∧ t.tx = s.tx

/-- R107: an error that a command posts has the code, the unit, the command and the cause of its row: 0x01 from ENC_BEGIN
with a request above 65535, 0x02 from PARSE_BYTE in ReadCkB where the received checksum differs from PCK, 0x03 from
PARSE_BYTE in ReadLenHi where the received length exceeds MAX_PAYLOAD; no other code is used. -/
def Obligations.ErrorCodesAreAsListed : Prop :=
  ∀ (i : Instr) (s t : State) (e : ErrorKind), exec i s = .next t → t.events = s.events ++ [.error e] →
    (e = .invalidLength ∧ errorCode e = 0x01#8 ∧ i.isEncoder = true ∧
      ∃ cls id len, i = .encBegin cls id len ∧ 65535 < len.toNat) ∨
    (e = .checksumMismatch ∧ errorCode e = 0x02#8 ∧ i.isParser = true ∧
      ∃ b, i = .parseByte b ∧ s.rx.pState = .readCkB ∧ (⟨s.rx.pRxCka, b⟩ : Acc) ≠ s.rx.pck) ∨
    (e = .frameTooLarge ∧ errorCode e = 0x03#8 ∧ i.isParser = true ∧
      ∃ b, i = .parseByte b ∧ s.rx.pState = .readLenHi ∧ s.maxPayload.val < b.toNat * 256 + s.rx.pLen.toNat % 256)

/-- R12, R124, R130: the TX and event streams are append-only: no step, a reset among them, takes back or changes what is
already there. -/
def Obligations.OutputStreamsOnlyGrow : Prop :=
  ∀ s t : State, step s = .next t → s.tx <+: t.tx ∧ s.events <+: t.events

/-- No step changes MAX_PAYLOAD, whatever else it does: it is fixed when the block is built (R5, R27). -/
def Obligations.MaxPayloadNeverChanges : Prop :=
  ∀ s t : State, step s = .next t → t.maxPayload = s.maxPayload

/-! ## Frames: what a command leaves alone (R11, R34, R72, R131) -/

/-- R11, R72: an encoder command writes only encoder state (and the output streams), PARSE_BYTE only parser state (and
events), CK_CLEAR and CK_UPDATE only CKU; so no command touches another unit's accumulator, and none changes the port,
the configuration or the mark. -/
def Obligations.CommandsWriteOnlyTheirUnit : Prop :=
  (∀ (i : Instr) (s t : State), exec i s = .next t → i.isEncoder = true →
    t.rx = s.rx ∧ t.cku = s.cku ∧ t.port = s.port ∧ t.faulted = s.faulted ∧ t.maxPayload = s.maxPayload) ∧
  (∀ (i : Instr) (s t : State), exec i s = .next t → i.isParser = true →
    t.enc = s.enc ∧ t.cku = s.cku ∧ t.tx = s.tx ∧ t.port = s.port ∧ t.faulted = s.faulted ∧
    t.maxPayload = s.maxPayload) ∧
  (∀ (i : Instr) (s t : State), exec i s = .next t → i.isChecksum = true →
    t.enc = s.enc ∧ t.rx = s.rx ∧ t.tx = s.tx ∧ t.events = s.events ∧ t.port = s.port ∧ t.faulted = s.faulted ∧
    t.maxPayload = s.maxPayload)

/-- Commands of a unit read only that unit's state (R11): with the other units' state and the streams replaced, the
command ends the same way and leaves its unit the same. -/
def Obligations.CommandsReadOnlyTheirUnit : Prop :=
  (∀ (i : Instr) (s t u : State), exec i s = .next t → i.isEncoder = true → u.enc = s.enc →
    ∃ v, exec i u = .next v ∧ v.enc = t.enc ∧ ∃ bs, t.tx = s.tx ++ bs ∧ v.tx = u.tx ++ bs) ∧
  (∀ (i : Instr) (s t u : State), exec i s = .next t → i.isParser = true → u.rx = s.rx → u.maxPayload = s.maxPayload →
    u.freeEpoch = s.freeEpoch →
    ∃ v, exec i u = .next v ∧ v.rx = t.rx ∧ ∃ es, t.events = s.events ++ es ∧ v.events = u.events ++ es) ∧
  (∀ (i : Instr) (s t u : State), exec i s = .next t → i.isChecksum = true → u.cku = s.cku →
    ∃ v, exec i u = .next v ∧ v.cku = t.cku)

/-- R34, R91: PBUF is written only by PARSE_BYTE in ReadPayload, and only at the address the meaning computes,
`payloadIndex`; every other byte of it, and all of it for every other command but RESET (which R123 lets leave anything
there), reads as before. -/
def Obligations.PbufFrame : Prop :=
  (∀ (s t : State) (b : Byte), exec (.parseByte b) s = .next t → s.rx.pState = .readPayload →
    memRead t (payloadIndex s) = b ∧ ∀ a, a ≠ payloadIndex s → memRead t a = memRead s a) ∧
  (∀ (s t : State) (b : Byte), exec (.parseByte b) s = .next t → s.rx.pState ≠ .readPayload →
    ∀ a, memRead t a = memRead s a) ∧
  (∀ (i : Instr) (s t : State), exec i s = .next t → i.isParser = false → i ≠ .reset →
    ∀ a, memRead t a = memRead s a)

/-- R131: commands of two different units may be given in either order: the same state, the same TX stream, and the same
events of each unit in the same order. -/
def Obligations.UnitsCommute : Prop :=
  ∀ (i j : Instr) (s t : State),
    (i.isEncoder = true ∧ (j.isParser = true ∨ j.isChecksum = true)) ∨
    (i.isParser = true ∧ (j.isEncoder = true ∨ j.isChecksum = true)) ∨
    (i.isChecksum = true ∧ (j.isEncoder = true ∨ j.isParser = true)) →
    runInstrs [i, j] s = .next t →
    ∃ u, runInstrs [j, i] s = .next u ∧ { u with events := t.events } = t ∧
      u.events.filter Event.ofEncoder = t.events.filter Event.ofEncoder ∧
      u.events.filter (fun e => !e.ofEncoder) = t.events.filter (fun e => !e.ofEncoder)

/-! ## Invariants and whole-machine rules (R29 to R31) -/

/-- R30, R31: both invariants, with PBUF's canonical form, are kept by every step. -/
def Obligations.EveryStepKeepsTheInvariants : Prop :=
  ∀ s t : State, Inv s → step s = .next t → Inv t

/-- The state a run begins in has the reset values of R29 and meets the invariants. That nothing has been output yet is the
model's choice for it (log entry 5). -/
def Obligations.ResetStateMeetsTheInvariants : Prop :=
  HasResetValues State.reset ∧ Inv State.reset ∧ State.reset.faulted = false ∧ State.reset.tx = [] ∧
  State.reset.events = []

/-- R30: the bytes an encoder emits between two Idle states with no reset between are complete frames, one after another. -/
def Obligations.IdleEncoderHasSentWholeFrames : Prop :=
  ∀ (s t : State) (cmds : List Instr), s.enc.eState = .idle → (∀ x ∈ cmds, x ≠ .reset) →
    runInstrs cmds s = .next t → t.enc.eState = .idle →
    ∃ frames : List (List Byte), (∀ f ∈ frames, validFrame f = true) ∧ t.tx = s.tx ++ frames.flatten

/-- R29, R31: what reset leaves unspecified is never read before it is written. Two machines that differ only in those
registers and in PBUF, while the parser seeks its first sync byte, show the same for every sequence of commands. So no
observation rests on the values log entries 5 and 6 choose. -/
def Obligations.UnspecifiedResetValuesAreUnobservable : Prop :=
  ∀ (s t : State) (cmds : List Instr), AgreeOnSpecified s t → s.rx.pState = .seekSync1 →
    observeOutcome (runInstrs cmds s) = observeOutcome (runInstrs cmds t)
end

