-- ==== Sys2Proof/Laws/Checksum.lean ====
section
/-! SUPPORT. The accumulator over sequences of bytes (R64, R65). -/

namespace Sys2Proof.Machine

@[simp] theorem Acc.updateAll_nil (x : Acc) : x.updateAll [] = x := rfl

@[simp] theorem Acc.updateAll_cons (x : Acc) (b : Byte) (bs : List Byte) :
    x.updateAll (b :: bs) = (x.update b).updateAll bs := rfl

@[simp] theorem Acc.updateAll_append (x : Acc) (bs cs : List Byte) :
    x.updateAll (bs ++ cs) = (x.updateAll bs).updateAll cs := by
  simp [Acc.updateAll]

@[simp] theorem Acc.update_a (x : Acc) (b : Byte) : (x.update b).a = x.a + b := rfl
@[simp] theorem Acc.update_b (x : Acc) (b : Byte) : (x.update b).b = x.b + (x.a + b) := rfl

@[simp] theorem checksum_nil : checksum [] = Acc.zero := rfl

theorem frameBytes_length (cls id : Byte) (p : List Byte) : (frameBytes cls id p).length = 8 + p.length := by
  simp [frameBytes, frameHeader, ckBytes]
  omega

end Sys2Proof.Machine
end

