-- ==== Sys2Proof/Laws/Decode.lean ====
section
/-! SUPPORT. The fields of an encoded command: what a placed field shows where it stands, and that it shows nothing
elsewhere (R50). -/

namespace Sys2Proof

/-- A placed field, bit by bit. -/
theorem getLsbD_place {n : Nat} (v : BitVec n) (lo i : Nat) :
    (place v lo).getLsbD i = (decide (i < 64) && !decide (i < lo) && v.getLsbD (i - lo)) := by
  simp only [place, BitVec.getLsbD_shiftLeft, BitVec.getLsbD_setWidth]
  by_cases h : i < 64
  · have h' : i - lo < 64 := by omega
    simp [h, h']
  · simp [h]

/-- A field read where it was placed is its value. -/
theorem extractLsb'_place_same {n : Nat} (v : BitVec n) (lo : Nat) (h : lo + n ≤ 64) :
    (place v lo).extractLsb' lo n = v := by
  apply BitVec.eq_of_getLsbD_eq
  intro i hi
  have h64 : lo + i < 64 := by omega
  have hlo : ¬ lo + i < lo := by omega
  rw [BitVec.getLsbD_extractLsb', getLsbD_place]
  simp [hi, h64]

/-- A field read above or below where it was placed shows zero bits. -/
theorem extractLsb'_place_disjoint {n : Nat} (v : BitVec n) (lo start len : Nat)
    (h : start + len ≤ lo ∨ lo + n ≤ start) : (place v lo).extractLsb' start len = 0#len := by
  apply BitVec.eq_of_getLsbD_eq
  intro i hi
  rw [BitVec.getLsbD_extractLsb', getLsbD_place]
  rcases h with h | h
  · have hlo : start + i < lo := by omega
    simp [hlo]
  · have hv : v.getLsbD (start + i - lo) = false := BitVec.getLsbD_of_ge v _ (by omega)
    simp [hv]

/-- A field of a word built from two parts is read from each. -/
theorem extractLsb'_or_words (x y : CmdWord) (start len : Nat) :
    (x ||| y).extractLsb' start len = x.extractLsb' start len ||| y.extractLsb' start len := by
  apply BitVec.eq_of_getLsbD_eq
  intro i hi
  simp [hi]

/-- Two words are equal when all their fields are (R50). -/
theorem word_eq_of_fields {x y : CmdWord} (hop : opField x = opField y) (hcls : clsField x = clsField y)
    (hid : idField x = idField y) (hrsv : rsvField x = rsvField y) (hopnd : opndField x = opndField y) : x = y := by
  have bit {start len : Nat} (h : x.extractLsb' start len = y.extractLsb' start len) (i : Nat)
      (h1 : start ≤ i) (h2 : i < start + len) : x.getLsbD i = y.getLsbD i := by
    have hb := congrArg (fun v => v.getLsbD (i - start)) h
    have hi : i - start < len := by omega
    have hs : start + (i - start) = i := by omega
    simpa [hi, hs] using hb
  apply BitVec.eq_of_getLsbD_eq
  intro i hi
  by_cases h32 : i < 32
  · exact bit hopnd i (by omega) (by omega)
  by_cases h44 : i < 44
  · exact bit hrsv i (by omega) (by omega)
  by_cases h52 : i < 52
  · exact bit hid i (by omega) (by omega)
  by_cases h60 : i < 60
  · exact bit hcls i (by omega) (by omega)
  · exact bit hop i (by omega) (by omega)

end Sys2Proof
end

