-- ==== Sys2Proof/Laws/State.lean ====
section
/-! SUPPORT. One lemma per field per update: what each shared operation on State writes, and that it writes nothing else. -/

namespace Sys2Proof.Machine

/-! ## emit -/

@[simp] theorem emit_enc (s : State) (bs : List Byte) : (emit s bs).enc = s.enc := rfl
@[simp] theorem emit_rx (s : State) (bs : List Byte) : (emit s bs).rx = s.rx := rfl
@[simp] theorem emit_cku (s : State) (bs : List Byte) : (emit s bs).cku = s.cku := rfl
@[simp] theorem emit_maxPayload (s : State) (bs : List Byte) : (emit s bs).maxPayload = s.maxPayload := rfl
@[simp] theorem emit_faulted (s : State) (bs : List Byte) : (emit s bs).faulted = s.faulted := rfl
@[simp] theorem emit_port (s : State) (bs : List Byte) : (emit s bs).port = s.port := rfl
@[simp] theorem emit_tx (s : State) (bs : List Byte) : (emit s bs).tx = s.tx ++ bs := rfl
@[simp] theorem emit_events (s : State) (bs : List Byte) : (emit s bs).events = s.events := rfl
@[simp] theorem emit_freeEpoch (s : State) (bs : List Byte) : (emit s bs).freeEpoch = s.freeEpoch := rfl

/-! ## post -/

@[simp] theorem post_enc (s : State) (e : Event) : (post s e).enc = s.enc := rfl
@[simp] theorem post_rx (s : State) (e : Event) : (post s e).rx = s.rx := rfl
@[simp] theorem post_cku (s : State) (e : Event) : (post s e).cku = s.cku := rfl
@[simp] theorem post_maxPayload (s : State) (e : Event) : (post s e).maxPayload = s.maxPayload := rfl
@[simp] theorem post_faulted (s : State) (e : Event) : (post s e).faulted = s.faulted := rfl
@[simp] theorem post_port (s : State) (e : Event) : (post s e).port = s.port := rfl
@[simp] theorem post_tx (s : State) (e : Event) : (post s e).tx = s.tx := rfl
@[simp] theorem post_events (s : State) (e : Event) : (post s e).events = s.events ++ [e] := rfl
@[simp] theorem post_freeEpoch (s : State) (e : Event) : (post s e).freeEpoch = s.freeEpoch := rfl

/-! ## postError -/

@[simp] theorem postError_enc (s : State) (e : ErrorKind) : (postError s e).enc = s.enc := rfl
@[simp] theorem postError_rx (s : State) (e : ErrorKind) : (postError s e).rx = s.rx := rfl
@[simp] theorem postError_cku (s : State) (e : ErrorKind) : (postError s e).cku = s.cku := rfl
@[simp] theorem postError_maxPayload (s : State) (e : ErrorKind) : (postError s e).maxPayload = s.maxPayload := rfl
@[simp] theorem postError_faulted (s : State) (e : ErrorKind) : (postError s e).faulted = s.faulted := rfl
@[simp] theorem postError_port (s : State) (e : ErrorKind) : (postError s e).port = s.port := rfl
@[simp] theorem postError_tx (s : State) (e : ErrorKind) : (postError s e).tx = s.tx := rfl
@[simp] theorem postError_events (s : State) (e : ErrorKind) : (postError s e).events = s.events ++ [.error e] := rfl
@[simp] theorem postError_freeEpoch (s : State) (e : ErrorKind) : (postError s e).freeEpoch = s.freeEpoch := rfl

/-! ## setPState -/

@[simp] theorem setPState_enc (s : State) (v : ParserState) : (setPState s v).enc = s.enc := rfl
@[simp] theorem setPState_pState (s : State) (v : ParserState) : (setPState s v).rx.pState = v := rfl
@[simp] theorem setPState_pClass (s : State) (v : ParserState) : (setPState s v).rx.pClass = s.rx.pClass := rfl
@[simp] theorem setPState_pId (s : State) (v : ParserState) : (setPState s v).rx.pId = s.rx.pId := rfl
@[simp] theorem setPState_pLen (s : State) (v : ParserState) : (setPState s v).rx.pLen = s.rx.pLen := rfl
@[simp] theorem setPState_pRemaining (s : State) (v : ParserState) : (setPState s v).rx.pRemaining = s.rx.pRemaining := rfl
@[simp] theorem setPState_pRxCka (s : State) (v : ParserState) : (setPState s v).rx.pRxCka = s.rx.pRxCka := rfl
@[simp] theorem setPState_pck (s : State) (v : ParserState) : (setPState s v).rx.pck = s.rx.pck := rfl
@[simp] theorem setPState_pbuf (s : State) (v : ParserState) : (setPState s v).rx.pbuf = s.rx.pbuf := rfl
@[simp] theorem setPState_cku (s : State) (v : ParserState) : (setPState s v).cku = s.cku := rfl
@[simp] theorem setPState_maxPayload (s : State) (v : ParserState) : (setPState s v).maxPayload = s.maxPayload := rfl
@[simp] theorem setPState_faulted (s : State) (v : ParserState) : (setPState s v).faulted = s.faulted := rfl
@[simp] theorem setPState_port (s : State) (v : ParserState) : (setPState s v).port = s.port := rfl
@[simp] theorem setPState_tx (s : State) (v : ParserState) : (setPState s v).tx = s.tx := rfl
@[simp] theorem setPState_events (s : State) (v : ParserState) : (setPState s v).events = s.events := rfl
@[simp] theorem setPState_freeEpoch (s : State) (v : ParserState) : (setPState s v).freeEpoch = s.freeEpoch := rfl

/-! ## updatePck -/

@[simp] theorem updatePck_enc (s : State) (b : Byte) : (updatePck s b).enc = s.enc := rfl
@[simp] theorem updatePck_pState (s : State) (b : Byte) : (updatePck s b).rx.pState = s.rx.pState := rfl
@[simp] theorem updatePck_pClass (s : State) (b : Byte) : (updatePck s b).rx.pClass = s.rx.pClass := rfl
@[simp] theorem updatePck_pId (s : State) (b : Byte) : (updatePck s b).rx.pId = s.rx.pId := rfl
@[simp] theorem updatePck_pLen (s : State) (b : Byte) : (updatePck s b).rx.pLen = s.rx.pLen := rfl
@[simp] theorem updatePck_pRemaining (s : State) (b : Byte) : (updatePck s b).rx.pRemaining = s.rx.pRemaining := rfl
@[simp] theorem updatePck_pRxCka (s : State) (b : Byte) : (updatePck s b).rx.pRxCka = s.rx.pRxCka := rfl
@[simp] theorem updatePck_pck (s : State) (b : Byte) : (updatePck s b).rx.pck = s.rx.pck.update b := rfl
@[simp] theorem updatePck_pbuf (s : State) (b : Byte) : (updatePck s b).rx.pbuf = s.rx.pbuf := rfl
@[simp] theorem updatePck_cku (s : State) (b : Byte) : (updatePck s b).cku = s.cku := rfl
@[simp] theorem updatePck_maxPayload (s : State) (b : Byte) : (updatePck s b).maxPayload = s.maxPayload := rfl
@[simp] theorem updatePck_faulted (s : State) (b : Byte) : (updatePck s b).faulted = s.faulted := rfl
@[simp] theorem updatePck_port (s : State) (b : Byte) : (updatePck s b).port = s.port := rfl
@[simp] theorem updatePck_tx (s : State) (b : Byte) : (updatePck s b).tx = s.tx := rfl
@[simp] theorem updatePck_events (s : State) (b : Byte) : (updatePck s b).events = s.events := rfl
@[simp] theorem updatePck_freeEpoch (s : State) (b : Byte) : (updatePck s b).freeEpoch = s.freeEpoch := rfl

/-! ## memWrite -/

@[simp] theorem memWrite_enc (s : State) (a : Nat) (v : Byte) : (memWrite s a v).enc = s.enc := rfl
@[simp] theorem memWrite_pState (s : State) (a : Nat) (v : Byte) : (memWrite s a v).rx.pState = s.rx.pState := rfl
@[simp] theorem memWrite_pClass (s : State) (a : Nat) (v : Byte) : (memWrite s a v).rx.pClass = s.rx.pClass := rfl
@[simp] theorem memWrite_pId (s : State) (a : Nat) (v : Byte) : (memWrite s a v).rx.pId = s.rx.pId := rfl
@[simp] theorem memWrite_pLen (s : State) (a : Nat) (v : Byte) : (memWrite s a v).rx.pLen = s.rx.pLen := rfl
@[simp] theorem memWrite_pRemaining (s : State) (a : Nat) (v : Byte) : (memWrite s a v).rx.pRemaining = s.rx.pRemaining := rfl
@[simp] theorem memWrite_pRxCka (s : State) (a : Nat) (v : Byte) : (memWrite s a v).rx.pRxCka = s.rx.pRxCka := rfl
@[simp] theorem memWrite_pck (s : State) (a : Nat) (v : Byte) : (memWrite s a v).rx.pck = s.rx.pck := rfl
@[simp] theorem memWrite_pbuf (s : State) (a : Nat) (v : Byte) : (memWrite s a v).rx.pbuf = s.rx.pbuf.write a v := rfl
@[simp] theorem memWrite_cku (s : State) (a : Nat) (v : Byte) : (memWrite s a v).cku = s.cku := rfl
@[simp] theorem memWrite_maxPayload (s : State) (a : Nat) (v : Byte) : (memWrite s a v).maxPayload = s.maxPayload := rfl
@[simp] theorem memWrite_faulted (s : State) (a : Nat) (v : Byte) : (memWrite s a v).faulted = s.faulted := rfl
@[simp] theorem memWrite_port (s : State) (a : Nat) (v : Byte) : (memWrite s a v).port = s.port := rfl
@[simp] theorem memWrite_tx (s : State) (a : Nat) (v : Byte) : (memWrite s a v).tx = s.tx := rfl
@[simp] theorem memWrite_events (s : State) (a : Nat) (v : Byte) : (memWrite s a v).events = s.events := rfl
@[simp] theorem memWrite_freeEpoch (s : State) (a : Nat) (v : Byte) : (memWrite s a v).freeEpoch = s.freeEpoch := rfl

/-! ## applyReset -/

@[simp] theorem applyReset_enc (s : State) : (applyReset s).enc = Encoder.afterReset := rfl
@[simp] theorem applyReset_rx (s : State) : (applyReset s).rx = Parser.afterReset (s.freeEpoch + 1) := rfl
@[simp] theorem applyReset_cku (s : State) : (applyReset s).cku = Acc.zero := rfl
@[simp] theorem applyReset_maxPayload (s : State) : (applyReset s).maxPayload = s.maxPayload := rfl
@[simp] theorem applyReset_faulted (s : State) : (applyReset s).faulted = s.faulted := rfl
@[simp] theorem applyReset_port (s : State) : (applyReset s).port = s.port := rfl
@[simp] theorem applyReset_tx (s : State) : (applyReset s).tx = s.tx := rfl
@[simp] theorem applyReset_events (s : State) : (applyReset s).events = s.events := rfl
@[simp] theorem applyReset_freeEpoch (s : State) : (applyReset s).freeEpoch = s.freeEpoch + 1 := rfl

/-! ## pushCommand -/

@[simp] theorem pushCommand_enc (w : CmdWord) (s : State) : (pushCommand w s).enc = s.enc := rfl
@[simp] theorem pushCommand_rx (w : CmdWord) (s : State) : (pushCommand w s).rx = s.rx := rfl
@[simp] theorem pushCommand_cku (w : CmdWord) (s : State) : (pushCommand w s).cku = s.cku := rfl
@[simp] theorem pushCommand_maxPayload (w : CmdWord) (s : State) : (pushCommand w s).maxPayload = s.maxPayload := rfl
@[simp] theorem pushCommand_faulted (w : CmdWord) (s : State) : (pushCommand w s).faulted = s.faulted := rfl
@[simp] theorem pushCommand_port (w : CmdWord) (s : State) : (pushCommand w s).port = .command w :: s.port := rfl
@[simp] theorem pushCommand_tx (w : CmdWord) (s : State) : (pushCommand w s).tx = s.tx := rfl
@[simp] theorem pushCommand_events (w : CmdWord) (s : State) : (pushCommand w s).events = s.events := rfl
@[simp] theorem pushCommand_freeEpoch (w : CmdWord) (s : State) : (pushCommand w s).freeEpoch = s.freeEpoch := rfl

end Sys2Proof.Machine
end

