-- ==== Sys2Proof/Laws/Memory.lean ====
section
/-! SUPPORT. The laws of PBUF's contents: read after write, and that a write keeps the canonical form. -/

namespace Sys2Proof.Machine

@[simp] theorem Memory.read_nil (a : Nat) : Memory.read [] a = none := rfl

theorem Memory.read_cons (k a : Nat) (v : Byte) (t : Memory) :
    Memory.read ((k, v) :: t) a = if a = k then some v else Memory.read t a := rfl

/-- A write leaves the written byte at its address. -/
@[simp] theorem Memory.read_write_same (m : Memory) (a : Nat) (v : Byte) : (m.write a v).read a = some v := by
  induction m with
  | nil => simp [Memory.write, Memory.read_cons]
  | cons c t ih =>
    obtain ⟨k, x⟩ := c
    simp only [Memory.write]
    split
    · simp [Memory.read_cons]
    · split
      · simp [Memory.read_cons]
      · next h => simp [Memory.read_cons, h, ih]

/-- A write leaves every other address alone. -/
theorem Memory.read_write_ne (m : Memory) {a a' : Nat} (v : Byte) (h : a' ≠ a) :
    (m.write a v).read a' = m.read a' := by
  induction m with
  | nil => simp [Memory.write, Memory.read_cons, h]
  | cons c t ih =>
    obtain ⟨k, x⟩ := c
    simp only [Memory.write]
    split
    · simp [Memory.read_cons, h]
    · split
      · next hk => subst hk; simp [Memory.read_cons, h]
      · simp [Memory.read_cons, ih]

/-- A write lists no address but the written one and those already listed. -/
theorem Memory.mem_write {m : Memory} {a : Nat} {v : Byte} {c : Host.Cell} (h : c ∈ m.write a v) :
    c = (a, v) ∨ c ∈ m := by
  induction m with
  | nil => simpa [Memory.write] using h
  | cons d t ih =>
    obtain ⟨k, x⟩ := d
    simp only [Memory.write] at h
    split at h
    · simpa using h
    · split at h
      · rcases List.mem_cons.1 h with h | h
        · exact .inl h
        · exact .inr (List.mem_cons_of_mem _ h)
      · rcases List.mem_cons.1 h with h | h
        · exact .inr (h ▸ List.mem_cons_self)
        · exact (ih h).imp id (List.mem_cons_of_mem _)

/-- A write keeps the canonical form. -/
theorem Memory.write_wf {m : Memory} (a : Nat) (v : Byte) (h : m.wf) : (m.write a v).wf := by
  induction m with
  | nil => simp [Memory.wf, Memory.write]
  | cons c t ih =>
    obtain ⟨k, x⟩ := c
    have hk : ∀ c ∈ t, k < c.1 := (List.pairwise_cons.1 h).1
    have ht : Memory.wf t := (List.pairwise_cons.1 h).2
    simp only [Memory.write]
    split
    · next hak =>
      refine List.pairwise_cons.2 ⟨fun c hc => ?_, h⟩
      rcases List.mem_cons.1 hc with rfl | hc
      · exact hak
      · exact hak.trans (hk c hc)
    · split
      · next hak => subst hak; exact List.pairwise_cons.2 ⟨hk, ht⟩
      · next h1 h2 =>
        refine List.pairwise_cons.2 ⟨fun c hc => ?_, ih ht⟩
        rcases Memory.mem_write hc with rfl | hc
        · show k < a
          omega
        · exact hk c hc

/-- A write inside the buffer keeps every listed address inside it. -/
theorem Memory.write_within {m : Memory} {cap a : Nat} (v : Byte) (ha : a < cap) (h : m.within cap) :
    (m.write a v).within cap := by
  intro c hc
  rcases Memory.mem_write hc with rfl | hc
  · exact ha
  · exact h c hc

/-- In the canonical form, an address below the first listed one is not listed. -/
theorem Memory.read_below {k : Nat} {t : Memory} (h : ∀ c ∈ t, k < c.1) : t.read k = none := by
  induction t with
  | nil => rfl
  | cons c t ih =>
    obtain ⟨k', x⟩ := c
    have hk : k < k' := h (k', x) List.mem_cons_self
    have hne : k ≠ k' := by omega
    rw [Memory.read_cons, if_neg hne]
    exact ih fun c hc => h c (List.mem_cons_of_mem _ hc)

/-- Contents in the canonical form that read alike at every address are the same list. -/
theorem Memory.eq_of_read_eq {m m' : Memory} (h : m.wf) (h' : m'.wf) (hr : ∀ a, m.read a = m'.read a) : m = m' := by
  induction m generalizing m' with
  | nil =>
    cases m' with
    | nil => rfl
    | cons c t =>
      have := hr c.1
      simp [Memory.read] at this
  | cons c t ih =>
    obtain ⟨k, x⟩ := c
    have hk := (List.pairwise_cons.1 h).1
    cases m' with
    | nil =>
      have := hr k
      simp [Memory.read_cons] at this
    | cons c' t' =>
      obtain ⟨k', x'⟩ := c'
      have hk' := (List.pairwise_cons.1 h').1
      have hkk : k = k' := by
        rcases Nat.lt_trichotomy k k' with hlt | heq | hgt
        · have hnot : Memory.read ((k', x') :: t') k = none :=
            Memory.read_below fun c hc => by
              rcases List.mem_cons.1 hc with rfl | hc
              · exact hlt
              · exact hlt.trans (hk' c hc)
          have := hr k
          rw [hnot] at this
          simp [Memory.read_cons] at this
        · exact heq
        · have hnot : Memory.read ((k, x) :: t) k' = none :=
            Memory.read_below fun c hc => by
              rcases List.mem_cons.1 hc with rfl | hc
              · exact hgt
              · exact hgt.trans (hk c hc)
          have := hr k'
          rw [hnot] at this
          simp [Memory.read_cons] at this
      subst hkk
      have hx : x = x' := by simpa [Memory.read_cons] using hr k
      subst hx
      congr 1
      refine ih (List.pairwise_cons.1 h).2 (List.pairwise_cons.1 h').2 fun a => ?_
      by_cases ha : a = k
      · subst ha
        rw [Memory.read_below hk, Memory.read_below hk']
      · simpa [Memory.read_cons, ha] using hr a

/-- PBUF at the start of a run is in the canonical form. -/
theorem State.reset_pbuf_wf : State.reset.rx.pbuf.wf := List.Pairwise.nil

/-- PBUF after a reset is in the canonical form. -/
theorem applyReset_pbuf_wf (s : State) : (applyReset s).rx.pbuf.wf := List.Pairwise.nil

/-- `MemWrite` keeps the canonical form. -/
theorem memWrite_pbuf_wf {s : State} (a : Nat) (v : Byte) (h : s.rx.pbuf.wf) : (memWrite s a v).rx.pbuf.wf :=
  Memory.write_wf a v h

/-- `MemRead` gives the byte last written there. -/
theorem memRead_of_read {s : State} {a : Nat} {v : Byte} (h : s.rx.pbuf.read a = some v) : memRead s a = v := by
  simp [memRead, h]

/-- `MemRead` after `MemWrite` at the same address. -/
@[simp] theorem memRead_memWrite_same (s : State) (a : Nat) (v : Byte) : memRead (memWrite s a v) a = v := by
  simp [memRead]

/-- `MemRead` after `MemWrite` at another address. -/
theorem memRead_memWrite_ne (s : State) {a a' : Nat} (v : Byte) (h : a' ≠ a) :
    memRead (memWrite s a v) a' = memRead s a' := by
  simp [memRead, Memory.read_write_ne _ v h]

end Sys2Proof.Machine
end

