-- ==== Sys2Proof/Laws/Operands.lean ====
section
/-! SUPPORT. The length field as two bytes and as a number (R36, R46, R51). -/

namespace Sys2Proof.Machine

@[simp] theorem lenLo_lenOf (hi lo : Byte) : lenLo (lenOf hi lo) = lo := by
  apply BitVec.eq_of_toNat_eq
  simp only [lenLo, lenOf, BitVec.extractLsb'_toNat, BitVec.toNat_append]
  have h1 := hi.isLt
  have h2 := lo.isLt
  rw [← Nat.shiftLeft_add_eq_or_of_lt h2, Nat.shiftLeft_eq, Nat.shiftRight_zero]
  omega

@[simp] theorem lenHi_lenOf (hi lo : Byte) : lenHi (lenOf hi lo) = hi := by
  apply BitVec.eq_of_toNat_eq
  simp only [lenHi, lenOf, BitVec.extractLsb'_toNat, BitVec.toNat_append]
  have h1 := hi.isLt
  have h2 := lo.isLt
  rw [← Nat.shiftLeft_add_eq_or_of_lt h2, Nat.shiftLeft_eq, Nat.shiftRight_eq_div_pow]
  omega

/-- `L = LEN_HI * 256 + LEN_LO` (R46). -/
theorem lenOf_toNat (hi lo : Byte) : (lenOf hi lo).toNat = hi.toNat * 256 + lo.toNat := by
  simp only [lenOf, BitVec.toNat_append]
  have h2 := lo.isLt
  rw [← Nat.shiftLeft_add_eq_or_of_lt h2, Nat.shiftLeft_eq]

@[simp] theorem lenOf_lenHi_lenLo (n : Half) : lenOf (lenHi n) (lenLo n) = n := by
  apply BitVec.eq_of_toNat_eq
  rw [lenOf_toNat]
  simp only [lenHi, lenLo, BitVec.extractLsb'_toNat, Nat.shiftRight_eq_div_pow]
  have := n.isLt
  omega

@[simp] theorem lenLo_setLenLo (n : Half) (b : Byte) : lenLo (setLenLo n b) = b := by simp [setLenLo]
@[simp] theorem lenHi_setLenLo (n : Half) (b : Byte) : lenHi (setLenLo n b) = lenHi n := by simp [setLenLo]
@[simp] theorem lenLo_setLenHi (n : Half) (b : Byte) : lenLo (setLenHi n b) = lenLo n := by simp [setLenHi]
@[simp] theorem lenHi_setLenHi (n : Half) (b : Byte) : lenHi (setLenHi n b) = b := by simp [setLenHi]

/-- Both length bytes received, the low one first, give the length they spell (R89, R90). -/
@[simp] theorem setLenHi_setLenLo (n : Half) (lo hi : Byte) : setLenHi (setLenLo n lo) hi = lenOf hi lo := by
  simp [setLenHi]

/-- A request that is not too long is the length the frame declares. -/
theorem reqLen_toNat {len : LenReq} (h : ¬ reqTooLong len) : (reqLen len).toNat = len.toNat := by
  simp only [reqTooLong, Config.maxFrameLen] at h
  simp only [reqLen, BitVec.extractLsb'_toNat, Nat.shiftRight_zero]
  omega

@[simp] theorem frameHeader_length (cls id : Byte) (n : Half) : (frameHeader cls id n).length = 6 := rfl
@[simp] theorem ckBytes_length (x : Acc) : (ckBytes x).length = 2 := rfl

end Sys2Proof.Machine
end

