-- ==== Sys2Proof/Laws/Exec.lean ====
section
/-! SUPPORT. Everything a meaning, a step or a run can do when it answers a next state, said once each. -/

namespace Sys2Proof.Machine

/-! ## Inversion: what a next state can be -/

theorem execEncBegin_next {cls id : Byte} {len : LenReq} {s t : State} (h : execEncBegin cls id len s = .next t) :
    s.enc.eState = .idle ∧
    ((reqTooLong len ∧ t = postError s .invalidLength) ∨
     (¬ reqTooLong len ∧ reqLen len = 0#16 ∧ t = emitEmptyFrame cls id s) ∨
     (¬ reqTooLong len ∧ reqLen len ≠ 0#16 ∧ t = openFrame cls id (reqLen len) s)) := by
  unfold execEncBegin at h
  split at h
  · cases h
  · next hidle =>
    refine ⟨hidle, ?_⟩
    split at h
    · next hlong => cases h; exact .inl ⟨hlong, rfl⟩
    · next hshort =>
      split at h
      · next hzero => cases h; exact .inr (.inl ⟨hshort, hzero, rfl⟩)
      · next hzero => cases h; exact .inr (.inr ⟨hshort, hzero, rfl⟩)

theorem execEncData_next {b : Byte} {s t : State} (h : execEncData b s = .next t) :
    s.enc.eState = .payload ∧
    ((s.enc.eRemaining - 1#16 = 0#16 ∧ t = closeFrame (emitPayloadByte b s)) ∨
     (s.enc.eRemaining - 1#16 ≠ 0#16 ∧ t = emitPayloadByte b s)) := by
  unfold execEncData at h
  split at h
  · cases h
  · next hopen =>
    refine ⟨hopen, ?_⟩
    split at h
    · next hlast => cases h; exact .inl ⟨hlast, rfl⟩
    · next hmore => cases h; exact .inr ⟨hmore, rfl⟩

theorem execEncPoll_next {cls id : Byte} {s t : State} (h : execEncPoll cls id s = .next t) :
    s.enc.eState = .idle ∧ t = emitEmptyFrame cls id s := by
  unfold execEncPoll at h
  split at h
  · cases h
  · next hidle => cases h; exact ⟨hidle, rfl⟩

theorem parseReadPayload_next {b : Byte} {s t : State} (h : parseReadPayload b s = .next t) :
    payloadIndex s < s.maxPayload.val ∧ t = storePayloadByte b s := by
  unfold parseReadPayload at h
  split at h
  · next hin => cases h; exact ⟨hin, rfl⟩
  · cases h

theorem parseReadCkB_next {b : Byte} {s t : State} (h : parseReadCkB b s = .next t) :
    (s.rx.pRxCka = s.rx.pck.a ∧ b = s.rx.pck.b ∧ s.rx.pLen.toNat ≤ s.maxPayload.val ∧
      t = setPState (post s (.frame s.rx.pClass s.rx.pId (framePayload s))) .seekSync1) ∨
    (¬ (s.rx.pRxCka = s.rx.pck.a ∧ b = s.rx.pck.b) ∧ t = setPState (postError s .checksumMismatch) .seekSync1) := by
  unfold parseReadCkB emitFrameEvent at h
  split at h
  · next hck =>
    split at h
    · next hfit => cases h; exact .inl ⟨hck.1, hck.2, hfit, rfl⟩
    · cases h
  · next hck => cases h; exact .inr ⟨hck, rfl⟩

/-- PARSE_BYTE, one case for each value of `p_state` (R84). -/
theorem execParseByte_next {b : Byte} {s t : State} (h : execParseByte b s = .next t) :
    (s.rx.pState = .seekSync1 ∧ t = parseSeekSync1 b s) ∨ (s.rx.pState = .seekSync2 ∧ t = parseSeekSync2 b s) ∨
    (s.rx.pState = .readClass ∧ t = parseReadClass b s) ∨ (s.rx.pState = .readId ∧ t = parseReadId b s) ∨
    (s.rx.pState = .readLenLo ∧ t = parseReadLenLo b s) ∨ (s.rx.pState = .readLenHi ∧ t = parseReadLenHi b s) ∨
    (s.rx.pState = .readPayload ∧ payloadIndex s < s.maxPayload.val ∧ t = storePayloadByte b s) ∨
    (s.rx.pState = .readCkA ∧ t = parseReadCkA b s) ∨ (s.rx.pState = .readCkB ∧ parseReadCkB b s = .next t) := by
  unfold execParseByte at h
  split at h <;> first
    | (cases h; simp_all)
    | (have hn := parseReadPayload_next h; simp_all)
    | simp_all

/-! ## Forward equations: PARSE_BYTE where the state is known -/

theorem execParseByte_seekSync1 {s : State} (b : Byte) (h : s.rx.pState = .seekSync1) :
    execParseByte b s = .next (parseSeekSync1 b s) := by simp only [execParseByte, h]

theorem execParseByte_seekSync2 {s : State} (b : Byte) (h : s.rx.pState = .seekSync2) :
    execParseByte b s = .next (parseSeekSync2 b s) := by simp only [execParseByte, h]

theorem execParseByte_readClass {s : State} (b : Byte) (h : s.rx.pState = .readClass) :
    execParseByte b s = .next (parseReadClass b s) := by simp only [execParseByte, h]

theorem execParseByte_readId {s : State} (b : Byte) (h : s.rx.pState = .readId) :
    execParseByte b s = .next (parseReadId b s) := by simp only [execParseByte, h]

theorem execParseByte_readLenLo {s : State} (b : Byte) (h : s.rx.pState = .readLenLo) :
    execParseByte b s = .next (parseReadLenLo b s) := by simp only [execParseByte, h]

theorem execParseByte_readLenHi {s : State} (b : Byte) (h : s.rx.pState = .readLenHi) :
    execParseByte b s = .next (parseReadLenHi b s) := by simp only [execParseByte, h]

theorem execParseByte_readPayload {s : State} (b : Byte) (h : s.rx.pState = .readPayload)
    (hx : payloadIndex s < s.maxPayload.val) : execParseByte b s = .next (storePayloadByte b s) := by
  simp only [execParseByte, h, parseReadPayload]
  exact if_pos hx

theorem execParseByte_readCkA {s : State} (b : Byte) (h : s.rx.pState = .readCkA) :
    execParseByte b s = .next (parseReadCkA b s) := by simp only [execParseByte, h]

theorem execParseByte_readCkB_match {s : State} (b : Byte) (h : s.rx.pState = .readCkB)
    (ha : s.rx.pRxCka = s.rx.pck.a) (hb : b = s.rx.pck.b) (hx : s.rx.pLen.toNat ≤ s.maxPayload.val) :
    execParseByte b s =
      .next (setPState (post s (.frame s.rx.pClass s.rx.pId (framePayload s))) .seekSync1) := by
  simp only [execParseByte, h, parseReadCkB, emitFrameEvent]
  rw [if_pos ⟨ha, hb⟩]
  exact if_pos hx

theorem execParseByte_readCkB_mismatch {s : State} (b : Byte) (h : s.rx.pState = .readCkB)
    (hne : ¬ (s.rx.pRxCka = s.rx.pck.a ∧ b = s.rx.pck.b)) :
    execParseByte b s = .next (setPState (postError s .checksumMismatch) .seekSync1) := by
  simp only [execParseByte, h, parseReadCkB]
  exact if_neg hne

/-- The store address where the counters are in order (R31): no wrap. -/
theorem payloadIndex_eq {s : State} (h : s.rx.pRemaining.toNat ≤ s.rx.pLen.toNat) :
    payloadIndex s = s.rx.pLen.toNat - s.rx.pRemaining.toNat := by
  unfold payloadIndex
  rw [BitVec.toNat_sub_of_le]
  exact h

/-- One byte fewer, where a byte is owed: no wrap (R77, R91). -/
theorem countDown_toNat {r : Half} (h : 1 ≤ r.toNat) : (r - 1#16).toNat = r.toNat - 1 := by
  have := r.isLt
  simp only [BitVec.toNat_sub, BitVec.toNat_ofNat]
  omega

/-- The count reaches zero at the last byte (R77, R91). -/
theorem countDown_eq_zero {r : Half} (h : 1 ≤ r.toNat) : r - 1#16 = 0#16 ↔ r.toNat = 1 := by
  rw [← BitVec.toNat_inj, countDown_toNat h, BitVec.toNat_ofNat]
  omega

/-- A step: nothing, the reset input, or the command at the head of the port (R10, R117). -/
theorem step_next {s t : State} (h : step s = .next t) :
    s.faulted = false ∧
    ((s.port = [] ∧ t = s) ∨
     (∃ rest, s.port = .resetInput :: rest ∧ t = applyReset { s with port := rest }) ∨
     (∃ w rest i, s.port = .command w :: rest ∧ decode w = .ok i ∧ exec i { s with port := rest } = .next t)) := by
  unfold step takeInput at h
  split at h
  · next hact =>
    cases h
    split at hact
    · cases hact
    · next hf =>
      refine ⟨by simpa using hf, .inl ⟨?_, rfl⟩⟩
      split at hact
      · assumption
      · cases hact
      · unfold actionOfWord at hact; split at hact <;> cases hact
  · cases h
  · next hact =>
    cases h
    split at hact
    · cases hact
    · next hf =>
      refine ⟨by simpa using hf, .inr (.inl ?_)⟩
      split at hact
      · cases hact
      · next hport => cases hact; exact ⟨_, hport, rfl⟩
      · unfold actionOfWord at hact; split at hact <;> cases hact
  · next hact =>
    split at hact
    · cases hact
    · next hf =>
      refine ⟨by simpa using hf, .inr (.inr ?_)⟩
      split at hact
      · cases hact
      · cases hact
      · next hport =>
        unfold actionOfWord at hact
        split at hact
        · next hdec => cases hact; exact ⟨_, _, _, hport, hdec, h⟩
        · cases hact

/-! ## Sequences of commands -/

@[simp] theorem runInstrs_nil (s : State) : runInstrs [] s = .next s := rfl

theorem runInstrs_cons_next {i : Instr} {is : List Instr} {s t : State} (h : exec i s = .next t) :
    runInstrs (i :: is) s = runInstrs is t := by
  simp [runInstrs, h]

/-- A sequence is its first part, then its second (R41). -/
theorem runInstrs_append_next {is js : List Instr} {s t : State} (h : runInstrs is s = .next t) :
    runInstrs (is ++ js) s = runInstrs js t := by
  induction is generalizing s with
  | nil => cases h; rfl
  | cons i is ih =>
    simp only [runInstrs, List.cons_append] at h ⊢
    split at h
    · exact ih h
    · cases h
    · cases h

/-- The first command of a sequence that completes has completed. -/
theorem runInstrs_cons_inv {i : Instr} {is : List Instr} {s t : State} (h : runInstrs (i :: is) s = .next t) :
    ∃ u, exec i s = .next u ∧ runInstrs is u = .next t := by
  simp only [runInstrs] at h
  split at h
  · exact ⟨_, ‹_›, h⟩
  · cases h
  · cases h

@[simp] theorem parseStream_nil (s : State) : parseStream s [] = .next s := rfl

theorem parseStream_cons_next {b : Byte} {bs : List Byte} {s t : State} (h : execParseByte b s = .next t) :
    parseStream s (b :: bs) = parseStream t bs :=
  runInstrs_cons_next (i := .parseByte b) h

@[simp] theorem parseChunks_nil (s : State) : parseChunks [] s = .next s := rfl

theorem parseChunks_cons_next {c : List Byte} {cs : List (List Byte)} {s t : State} (h : parseStream s c = .next t) :
    parseChunks (c :: cs) s = parseChunks cs t := by
  simp [parseChunks, h]

theorem parseStream_append_next {bs cs : List Byte} {s t : State} (h : parseStream s bs = .next t) :
    parseStream s (bs ++ cs) = parseStream t cs := by
  unfold parseStream at h ⊢
  rw [List.map_append]
  exact runInstrs_append_next h

end Sys2Proof.Machine
end

