-- ==== Sys2Proof/Laws/PerInstr.lean ====
section
/-! SUPPORT. Statements made instruction by instruction. `EncodeSelectsRow`: the encoded word of a command is the word of
that command's row of the opcode map, and so a well-formed word (R52, R58). -/

namespace Sys2Proof

/-- A field of a masked word is the masked field. -/
theorem extractLsb'_and_words (x y : CmdWord) (start len : Nat) :
    (x &&& y).extractLsb' start len = x.extractLsb' start len &&& y.extractLsb' start len := by
  apply BitVec.eq_of_getLsbD_eq
  intro i hi
  simp [hi]

/-- Some row of the opcode map has the command's mnemonic and selects its encoded word. -/
def Laws.EncodeSelectsRow.Statement (i : Instr) : Prop :=
  ∃ r ∈ opRows, r.mnemonic = i.mnemonic ∧ r.selects (encode i) = true

/-- A word that a mask leaves with the pattern's fields is selected by the row. -/
theorem OpRow.selects_of_fields {m : String} {p k w : CmdWord} (hop : opField (w &&& k) = opField p)
    (hcls : clsField (w &&& k) = clsField p) (hid : idField (w &&& k) = idField p)
    (hrsv : rsvField (w &&& k) = rsvField p) (hopnd : opndField (w &&& k) = opndField p) :
    OpRow.selects ⟨m, p, k⟩ w = true := by
  simp [OpRow.selects, word_eq_of_fields hop hcls hid hrsv hopnd]

theorem Laws.EncodeSelectsRow.encBegin (cls id : Byte) (len : LenReq) :
    Laws.EncodeSelectsRow.Statement (.encBegin cls id len) := by
  refine ⟨⟨"ENC_BEGIN", 0x1000000000000000#64, 0xF0000FFF00000000#64⟩, by decide, rfl, OpRow.selects_of_fields ?_ ?_ ?_ ?_ ?_⟩ <;>
  simp (disch := omega) [encode, opField, clsField, idField, rsvField, opndField, extractLsb'_and_words,
    extractLsb'_or_words, extractLsb'_place_same, extractLsb'_place_disjoint]

/-- The words of a command whose one operand is DATA: a mask that clears only bits 7:0 leaves its OP alone (R52). -/
theorem selects_dataWord (m : String) (op : BitVec 4) (b : Byte) :
    OpRow.selects ⟨m, place op 60, 0xFFFFFFFFFFFFFF00#64⟩ (place op 60 ||| place b 0) = true := by
  have h : (place op 60 ||| place b 0) &&& 0xFFFFFFFFFFFFFF00#64 = place op 60 := by
    apply BitVec.eq_of_getLsbD_eq
    intro i hi
    rw [BitVec.getLsbD_and, BitVec.getLsbD_or, getLsbD_place, getLsbD_place]
    by_cases h8 : i < 8
    · have h60 : i < 60 := by omega
      have hm : (0xFFFFFFFFFFFFFF00#64).getLsbD i = false := by interval_cases i <;> decide
      simp [h60, hm]
    · have hb : b.getLsbD i = false := BitVec.getLsbD_of_ge b i (by omega)
      have hm : (0xFFFFFFFFFFFFFF00#64).getLsbD i = true := by interval_cases i <;> first | omega | decide
      simp [hb, hm]
  simp [OpRow.selects, h]

theorem Laws.EncodeSelectsRow.encData (b : Byte) : Laws.EncodeSelectsRow.Statement (.encData b) :=
  ⟨⟨"ENC_DATA", place 0x2#4 60, 0xFFFFFFFFFFFFFF00#64⟩, by decide, rfl, selects_dataWord _ _ _⟩

theorem Laws.EncodeSelectsRow.encPoll (cls id : Byte) : Laws.EncodeSelectsRow.Statement (.encPoll cls id) := by
  refine ⟨⟨"ENC_POLL", 0x3000000000000000#64, 0xF0000FFFFFFFFFFF#64⟩, by decide, rfl, OpRow.selects_of_fields ?_ ?_ ?_ ?_ ?_⟩ <;>
  simp (disch := omega) [encode, opField, clsField, idField, rsvField, opndField, extractLsb'_and_words,
    extractLsb'_or_words, extractLsb'_place_same, extractLsb'_place_disjoint]

theorem Laws.EncodeSelectsRow.parseByte (b : Byte) : Laws.EncodeSelectsRow.Statement (.parseByte b) :=
  ⟨⟨"PARSE_BYTE", place 0x4#4 60, 0xFFFFFFFFFFFFFF00#64⟩, by decide, rfl, selects_dataWord _ _ _⟩

theorem Laws.EncodeSelectsRow.ckClear : Laws.EncodeSelectsRow.Statement .ckClear :=
  ⟨⟨"CK_CLEAR", 0x5000000000000000#64, 0xFFFFFFFFFFFFFFFF#64⟩, by decide, rfl, by decide⟩

theorem Laws.EncodeSelectsRow.ckUpdate (b : Byte) : Laws.EncodeSelectsRow.Statement (.ckUpdate b) :=
  ⟨⟨"CK_UPDATE", place 0x6#4 60, 0xFFFFFFFFFFFFFF00#64⟩, by decide, rfl, selects_dataWord _ _ _⟩

theorem Laws.EncodeSelectsRow.reset : Laws.EncodeSelectsRow.Statement .reset :=
  ⟨⟨"RESET", 0x7000000000000000#64, 0xFFFFFFFFFFFFFFFF#64⟩, by decide, rfl, by decide⟩

end Sys2Proof
end

