-- ==== Sys2Proof/Machine/Assembler.lean ====
section
/-! DEFINITION. The text of an assembler line (R58 to R61): from its characters to `AsmLine`, whose words `assemble` gives.
What R58 does not say of the text (white space, letter case, a line with no command) is log entry 12. -/

namespace Sys2Proof.Machine

/-- The pieces of a line: a mnemonic or a number, and the three marks. -/
inductive AsmToken where
  | word (cs : List Char)
  | comma
  | listOpen
  | listClose
deriving DecidableEq, Repr

/-- `;` starts a comment to the end of the line (R58). -/
def dropComment : List Char → List Char
  | [] => []
  | c :: cs => if c = ';' then [] else c :: dropComment cs

/-- A finished word, if there is one, before the pieces that follow it. -/
def endWord (w : List Char) (ts : List AsmToken) : List AsmToken := if w = [] then ts else .word w :: ts

/-- The pieces of a line, given the characters of the word being read. -/
def asmTokens : List Char → List Char → List AsmToken
  | w, [] => endWord w []
  | w, c :: cs =>
    if c = ' ' ∨ c = '\t' then endWord w (asmTokens [] cs)
    else if c = ',' then endWord w (.comma :: asmTokens [] cs)
    else if c = '[' then endWord w (.listOpen :: asmTokens [] cs)
    else if c = ']' then endWord w (.listClose :: asmTokens [] cs)
    else asmTokens (w ++ [c]) cs

/-- The value of a digit, hexadecimal letters in either case. -/
def asmDigit (c : Char) : Option Nat :=
  if 48 ≤ c.toNat ∧ c.toNat ≤ 57 then some (c.toNat - 48)
  else if 97 ≤ c.toNat ∧ c.toNat ≤ 102 then some (c.toNat - 87)
  else if 65 ≤ c.toNat ∧ c.toNat ≤ 70 then some (c.toNat - 55)
  else none

/-- Digits in a base, after the value of those already read. -/
def asmDigits (base : Nat) : Nat → List Char → Option Nat
  | n, [] => some n
  | n, c :: cs =>
    match asmDigit c with
    | some d => if d < base then asmDigits base (n * base + d) cs else none
    | none => none

/-- A number, decimal or `0x` hexadecimal (R58). -/
def asmNumber : List Char → Option Nat
  | '0' :: 'x' :: c :: cs => asmDigits 16 0 (c :: cs)
  | c :: cs => asmDigits 10 0 (c :: cs)
  | [] => none

/-- The rest of a list after one of its numbers, up to its end, which ends the line. -/
def asmListRest : List AsmToken → Option (List Nat)
  | [.listClose] => some []
  | .comma :: .word w :: ts =>
    match asmNumber w, asmListRest ts with
    | some n, some ns => some (n :: ns)
    | _, _ => none
  | _ => none

/-- A list `[b0, …]` after its opening mark (R59 to R61). -/
def asmList : List AsmToken → Option (List Nat)
  | [.listClose] => some []
  | .word w :: ts =>
    match asmNumber w, asmListRest ts with
    | some n, some ns => some (n :: ns)
    | _, _ => none
  | _ => none

/-- Comma-separated operands: numbers, and at the end a list if there is one (R58 to R61). -/
def asmOperands : List AsmToken → Option (List Nat × Option (List Nat))
  | [] => some ([], none)
  | .listOpen :: ts => (asmList ts).map fun l => ([], some l)
  | [.word w] => (asmNumber w).map fun n => ([n], none)
  | .word w :: .comma :: t :: ts =>
    match asmNumber w, asmOperands (t :: ts) with
    | some n, some (ns, l) => some (n :: ns, l)
    | _, _ => none
  | _ => none

/-- A mnemonic with its operands: each row of R58, then R59, R60 and R61, and no other form (R62). -/
def asmForm (mnemonic : List Char) (ops : List Nat × Option (List Nat)) : Option AsmLine :=
  if mnemonic = "ENC_BEGIN".toList then
    match ops with
    | ([cls, id, len], none) => some (.encBegin cls id len)
    | _ => none
  else if mnemonic = "ENC_DATA".toList then
    match ops with
    | ([b], none) => some (.encData b)
    | _ => none
  else if mnemonic = "ENC_POLL".toList then
    match ops with
    | ([cls, id], none) => some (.encPoll cls id)
    | _ => none
  else if mnemonic = "PARSE_BYTE".toList then
    match ops with
    | ([b], none) => some (.parseByte b)
    | _ => none
  else if mnemonic = "CK_CLEAR".toList then
    match ops with
    | ([], none) => some .ckClear
    | _ => none
  else if mnemonic = "CK_UPDATE".toList then
    match ops with
    | ([b], none) => some (.ckUpdate b)
    | _ => none
  else if mnemonic = "RESET".toList then
    match ops with
    | ([], none) => some .reset
    | _ => none
  else if mnemonic = "ENC_FRAME".toList then
    match ops with
    | ([cls, id], some p) => some (.encFrame cls id p)
    | _ => none
  else if mnemonic = "PARSE_BUF".toList then
    match ops with
    | ([], some bs) => some (.parseBuf bs)
    | _ => none
  else if mnemonic = "CK_BUF".toList then
    match ops with
    | ([], some bs) => some (.ckBuf bs)
    | _ => none
  else none

/-- The command words of a line of text; nothing where an assembler refuses it (R58 to R62). -/
def assembleText (line : List Char) : Option (List CmdWord) :=
  match asmTokens [] (dropComment line) with
  | [] => some []
  | .word m :: ts => ((asmOperands ts).bind (asmForm m)).bind assemble
  | _ => none

end Sys2Proof.Machine
end

