-- ==== Sys2Proof/Tests/Slice0.lean ====
section
/-! SUPPORT. Tests. Expected values are the vectors of spec/95_test_vectors.md, named by their ids, or are worked out by
hand from a rule; then one witness for each statement that has hypotheses. -/

open Sys2Proof Sys2Proof.Machine Sys2Proof.Safety

namespace Sys2Proof.Tests

/-! ## Helpers: small states and readable outcomes -/

/-- The reset state of a block built with this MAX_PAYLOAD. -/
def block (cap : Fin 65536) : State := { State.reset with maxPayload := cap }

/-- That block with the parser's registers given. -/
def rxBlock (cap : Fin 65536) (st : ParserState) (len rem : Half) (ck : Acc) (buf : Memory) : State :=
  { block cap with rx := { (block cap).rx with
      pState := st, pClass := 0x06#8, pId := 0x01#8, pLen := len, pRemaining := rem, pRxCka := 0x07#8, pck := ck,
      pbuf := buf } }

/-- A block with a frame open, as ENC-S1 leaves the encoder but for the bytes owed. -/
def encBlock (rem : Half) : State :=
  { block 16 with enc := { eState := .payload, eRemaining := rem, eck := ⟨0x08#8, 0x1B#8⟩ } }

/-- The next state, if there is one. -/
def nextOf : Host.Outcome State Fault Refusal → Option State
  | .next s => some s
  | .fault _ => none
  | .refused _ => none

/-- The fault, if there is one. -/
def faultOf : Host.Outcome State Fault Refusal → Option Fault
  | .next _ => none
  | .fault r => some r
  | .refused _ => none

/-- A word at the head of the port. -/
def withWord (w : CmdWord) (s : State) : State := { s with port := [.command w] }

/-! ## WellFormed: what each check refuses (R52 to R62, vectors DEC-1 to DEC-12) -/

theorem test_wf_reserved_op : CmdWord.wf 0x0000000000000000#64 = false ∧ CmdWord.wf 0x8000000000000000#64 = false ∧
    CmdWord.wf 0xF000000000000000#64 = false := by decide

theorem test_wf_encBegin_rsv : CmdWord.wf 0x1060100100000000#64 = false ∧
    CmdWord.wf 0x1060180000000000#64 = false := by decide

theorem test_wf_encData_unused : CmdWord.wf 0x2000000000000100#64 = false ∧
    CmdWord.wf 0x2010000000000006#64 = false := by decide

theorem test_wf_encPoll_opnd : CmdWord.wf 0x3060100000000001#64 = false := by decide

theorem test_wf_parseByte_id : CmdWord.wf 0x4000100000000062#64 = false := by decide

theorem test_wf_ckClear_opnd : CmdWord.wf 0x5000000000000001#64 = false := by decide

theorem test_wf_ckUpdate_high : CmdWord.wf 0x6000000080000000#64 = false := by decide

theorem test_wf_reset_opnd : CmdWord.wf 0x7000000000000001#64 = false := by decide

theorem test_wf_good_words : CmdWord.wf 0x1FFFF00000000000#64 = true ∧ CmdWord.wf 0x10000000FFFFFFFF#64 = true ∧
    CmdWord.wf 0x40000000000000FF#64 = true := by decide

/-- R58: an operand the word cannot hold is refused, each operand in turn. -/
theorem test_asm_operand_out_of_range :
    (AsmLine.encBegin 256 0 0).wf = false ∧ (AsmLine.encBegin 0 256 0).wf = false ∧
    (AsmLine.encBegin 0 0 0x100000000).wf = false ∧ (AsmLine.encData 256).wf = false ∧
    (AsmLine.encPoll 256 0).wf = false ∧ (AsmLine.encPoll 0 256).wf = false ∧
    (AsmLine.parseByte 256).wf = false ∧ (AsmLine.ckUpdate 256).wf = false := by decide

/-- R59 to R61: the same inside the pseudo-instructions' lists. -/
theorem test_asm_list_out_of_range :
    (AsmLine.encFrame 256 0 []).wf = false ∧ (AsmLine.encFrame 0 256 []).wf = false ∧
    (AsmLine.encFrame 0 0 [1, 256]).wf = false ∧ (AsmLine.parseBuf [256]).wf = false ∧
    (AsmLine.ckBuf [0, 256]).wf = false := by decide

/-- R59: a payload longer than LEN_REQ can say. -/
theorem test_asm_frame_too_long : (AsmLine.encFrame 0 0 (List.replicate 0x100000000 0)).wf = false := by
  simp only [AsmLine.wf, List.length_replicate, asmLenOk, Bool.and_eq_false_iff]
  exact .inr (by decide)

/-- R58's example, and a length above 65535 that still assembles. -/
theorem test_asm_words : assemble (.encPoll 6 1) = some [0x3060100000000000#64] ∧
    assemble (.encBegin 6 1 65536) = some [0x1060100000010000#64] := by decide

/-- R59, R60, R61. -/
theorem test_asm_pseudo :
    assemble (.encFrame 5 1 [6, 1]) = some [0x1050100000000002#64, 0x2000000000000006#64, 0x2000000000000001#64] ∧
    assemble (.encFrame 6 1 []) = some [0x1060100000000000#64] ∧
    assemble (.parseBuf [0xB5, 0x62]) = some [0x40000000000000B5#64, 0x4000000000000062#64] ∧
    assemble (.ckBuf [6]) = some [0x6000000000000006#64] := by decide

/-- R58's example and a comment, as text. -/
theorem test_asm_text :
    assembleText "ENC_POLL 0x06, 0x01 ; CFG-MSG".toList = some [0x3060100000000000#64] ∧
    assembleText "ENC_FRAME 5, 1, [0x06, 1]".toList =
      some [0x1050100000000002#64, 0x2000000000000006#64, 0x2000000000000001#64] ∧
    assembleText "RESET".toList = some [0x7000000000000000#64] := by decide

/-- Text that an assembler refuses: a number that does not fit, an operand missing, an unknown mnemonic (R58, R62). -/
theorem test_asm_text_refused : assembleText "CK_UPDATE 256".toList = none ∧
    assembleText "ENC_POLL 6".toList = none ∧ assembleText "NOP".toList = none := by decide

/-! ## Decode: words written out from R50 and R52 -/

theorem test_decode_encBegin : decode 0x1050100000000002#64 = .ok (.encBegin 0x05#8 0x01#8 2#32) ∧
    decode 0x10000000FFFFFFFF#64 = .ok (.encBegin 0x00#8 0x00#8 0xFFFFFFFF#32) := by decide

theorem test_decode_encData : decode 0x20000000000000FF#64 = .ok (.encData 0xFF#8) := by decide

theorem test_decode_encPoll : decode 0x30A0400000000000#64 = .ok (.encPoll 0x0A#8 0x04#8) := by decide

theorem test_decode_parseByte : decode 0x40000000000000B5#64 = .ok (.parseByte 0xB5#8) := by decide

theorem test_decode_ckClear : decode 0x5000000000000000#64 = .ok .ckClear := by decide

theorem test_decode_ckUpdate : decode 0x6000000000000006#64 = .ok (.ckUpdate 0x06#8) := by decide

theorem test_decode_reset : decode 0x7000000000000000#64 = .ok .reset := by decide

theorem test_decode_rejects : decode 0x8000000000000000#64 = .error .reservedOpcode ∧
    decode 0x7000000000000001#64 = .error .nonzeroReservedBit := by decide

/-- The host's entry points: the table's bits, and the next step that runs them. -/
theorem test_table_word : decodeTableWord 64 0x6000000000000006 = some (.ckUpdate 0x06#8) ∧
    decodeTableWord 64 0 = none ∧ decodeTableWord 72 0x6000000000000006 = none := by decide

theorem test_fetch_word :
    (nextOf (step ((block 16).withFetchWord 64 0x6000000000000006))).map (·.cku) = some ⟨0x06#8, 0x06#8⟩ := by decide

/-! ## The checksum unit -/

/-- CK-S6. -/
theorem test_ckClear : nextOf (exec .ckClear { block 16 with cku := ⟨0x0F#8, 0x38#8⟩ }) = some (block 16) := by decide

/-- CK-S2 and CK-S3. -/
theorem test_ckUpdate :
    (nextOf (exec (.ckUpdate 0x01#8) { block 16 with cku := ⟨0xFF#8, 0xFF#8⟩ })).map (·.cku) = some ⟨0x00#8, 0xFF#8⟩ ∧
    (nextOf (exec (.ckUpdate 0x01#8) { block 16 with cku := ⟨0xFF#8, 0x00#8⟩ })).map (·.cku) =
      some ⟨0x00#8, 0x00#8⟩ := by decide

/-- CK-2, CK-4 and CK-15. -/
theorem test_checksum : checksum [0x06#8, 0x01#8, 0x00#8, 0x00#8] = ⟨0x07#8, 0x1B#8⟩ ∧
    checksum [0xFF#8, 0xFF#8] = ⟨0xFE#8, 0xFD#8⟩ ∧
    checksum [0x01#8, 0x02#8, 0x02#8, 0x00#8, 0xB5#8, 0x62#8] = ⟨0x1C#8, 0xE4#8⟩ := by decide

/-! ## The encoder -/

/-- ENC-S1 and ENC-S6. -/
theorem test_encBegin :
    nextOf (exec (.encBegin 0x05#8 0x01#8 2#32) (block 16)) =
      some { encBlock 2#16 with tx := [0xB5#8, 0x62#8, 0x05#8, 0x01#8, 0x02#8, 0x00#8] } ∧
    nextOf (exec (.encBegin 0x06#8 0x01#8 65536#32) (block 16)) =
      some { block 16 with events := [.error .invalidLength] } := by decide

/-- ENC-S8 and ENC-S14. -/
theorem test_encBegin_limits :
    (nextOf (exec (.encBegin 0x06#8 0x01#8 65535#32) (block 16))).map (·.enc) =
      some { eState := .payload, eRemaining := 65535#16, eck := ⟨0x05#8, 0x18#8⟩ } ∧
    faultOf (exec (.encBegin 0x06#8 0x01#8 65536#32) (encBlock 2#16)) = some .encFrameOpen := by decide

/-- ENC-S2 and ENC-S11. -/
theorem test_encData :
    (nextOf (exec (.encData 0x06#8) (encBlock 2#16))).map (fun t => (t.enc, t.tx)) =
      some ({ eState := .payload, eRemaining := 1#16, eck := ⟨0x0E#8, 0x29#8⟩ }, [0x06#8]) ∧
    faultOf (exec (.encData 0x06#8) (block 16)) = some .encNoFrame := by decide

/-- ENC-S3. -/
theorem test_encData_last :
    (nextOf (exec (.encData 0x01#8) { encBlock 1#16 with
      enc := { eState := .payload, eRemaining := 1#16, eck := ⟨0x0E#8, 0x29#8⟩ } })).map
        (fun t => (t.enc.eState, t.tx)) = some (.idle, [0x01#8, 0x0F#8, 0x38#8]) := by decide

/-- ENC-F8 and ENC-S13. -/
theorem test_encPoll :
    (nextOf (exec (.encPoll 0xB5#8 0x62#8) (block 16))).map (·.tx) =
      some [0xB5#8, 0x62#8, 0xB5#8, 0x62#8, 0x00#8, 0x00#8, 0x17#8, 0xFA#8] ∧
    faultOf (exec (.encPoll 0x06#8 0x01#8) (encBlock 2#16)) = some .encFrameOpen := by decide

/-! ## The parser and reset -/

/-- RX-S4 and RX-S5 from SeekSync2, RX-S11 and RX-S10 from ReadLenHi. -/
theorem test_parseByte_state :
    (nextOf (exec (.parseByte 0xB5#8) (rxBlock 16 .seekSync2 0#16 0#16 Acc.zero []))).map (·.rx.pState) =
      some .seekSync2 ∧
    (nextOf (exec (.parseByte 0x00#8) (rxBlock 16 .seekSync2 0#16 0#16 Acc.zero []))).map (·.rx.pState) =
      some .seekSync1 ∧
    (nextOf (exec (.parseByte 0x00#8) (rxBlock 16 .readLenHi 0x0011#16 0#16 Acc.zero []))).map
      (fun t => (t.rx.pState, t.events)) = some (.seekSync1, [.error .frameTooLarge]) ∧
    (nextOf (exec (.parseByte 0x00#8) (rxBlock 16 .readLenHi 0x0002#16 0#16 Acc.zero []))).map
      (fun t => (t.rx.pState, t.rx.pRemaining)) = some (.readPayload, 2#16) := by decide

/-- RX-S12, RX-S15 and RX-S16. -/
theorem test_parseByte_body :
    (nextOf (exec (.parseByte 0x06#8) (rxBlock 16 .readPayload 2#16 2#16 Acc.zero []))).map
      (fun t => (t.rx.pRemaining, t.rx.pbuf)) = some (1#16, [(0, 0x06#8)]) ∧
    (nextOf (exec (.parseByte 0x1B#8) (rxBlock 16 .readCkB 0#16 0#16 ⟨0x07#8, 0x1B#8⟩ []))).map
      (fun t => (t.rx.pState, t.events)) = some (.seekSync1, [.frame 0x06#8 0x01#8 []]) ∧
    (nextOf (exec (.parseByte 0x1A#8) (rxBlock 16 .readCkB 0#16 0#16 ⟨0x07#8, 0x1B#8⟩ []))).map
      (fun t => (t.rx.pState, t.events)) = some (.seekSync1, [.error .checksumMismatch]) := by decide

/-- R105's example. -/
theorem test_reset :
    (nextOf (exec .reset { rxBlock 16 .readPayload 2#16 2#16 Acc.zero [] with
      enc := (encBlock 2#16).enc, cku := ⟨0x12#8, 0x34#8⟩ })).map
        (fun t => (t.enc.eState, t.rx.pState, t.cku, t.tx, t.events)) =
      some (.idle, .seekSync1, ⟨0x00#8, 0x00#8⟩, [], []) := by decide

/-! ## Memory: the canonical form -/

theorem test_memory_write : Memory.write [(0, 1#8), (2, 3#8)] 1 9#8 = [(0, 1#8), (1, 9#8), (2, 3#8)] ∧
    Memory.write [(0, 1#8)] 0 9#8 = [(0, 9#8)] ∧ ¬ Memory.wf [(1, 1#8), (0, 2#8)] := by decide

/-! ## Witnesses: states and operands that meet the hypotheses of each statement -/

theorem witness_EncodeOfDecodeIsTheWord : ∃ i, decode 0x30A0400000000000#64 = .ok i := ⟨_, test_decode_encPoll⟩

theorem witness_DecodeAgreesWithMatchAndMask :
    (∃ r ∈ opRows, 0x10000000FFFFFFFF#64 &&& r.mask = r.pattern) ∧
    ∀ r ∈ opRows, 0x8000000000000000#64 &&& r.mask ≠ r.pattern := by decide

theorem witness_ReservedOpcodeFaults :
    ((0x0FFFFFFFFFFFFFFF#64 : CmdWord).toNat / 2 ^ 60 = 0 ∧ 8 ≤ (0x8000000000000000#64 : CmdWord).toNat / 2 ^ 60 ∧
      8 ≤ (0xFFFFFFFFFFFFFFFF#64 : CmdWord).toNat / 2 ^ 60) ∧ (block 16).faulted = false := by decide

/-- A word for each disjunct: the lowest and highest reserved bits, and each field that must be zero. -/
theorem witness_NonzeroReservedBitFaults :
    ((0x1060100100000000#64 : CmdWord).extractLsb' 60 4 = 1#4 ∧
      (0x1060100100000000#64 : CmdWord).extractLsb' 32 12 ≠ 0#12) ∧
    ((0x3060100000000001#64 : CmdWord).extractLsb' 60 4 = 3#4 ∧
      (0x3060100000000001#64 : CmdWord).extractLsb' 0 32 ≠ 0#32) ∧
    ((0x2010000000000006#64 : CmdWord).extractLsb' 60 4 = 2#4 ∧
      (0x2010000000000006#64 : CmdWord).extractLsb' 52 8 ≠ 0#8) ∧
    ((0x4000100000000062#64 : CmdWord).extractLsb' 60 4 = 4#4 ∧
      (0x4000100000000062#64 : CmdWord).extractLsb' 44 8 ≠ 0#8) ∧
    ((0x6000000080000000#64 : CmdWord).extractLsb' 60 4 = 6#4 ∧
      (0x6000000080000000#64 : CmdWord).extractLsb' 8 24 ≠ 0#24) ∧
    ((0x5000000000000001#64 : CmdWord).extractLsb' 60 4 = 5#4 ∧
      (0x5000000000000001#64 : CmdWord).extractLsb' 0 60 ≠ 0#60) ∧
    ((0x7800000000000000#64 : CmdWord).extractLsb' 60 4 = 7#4 ∧
      (0x7800000000000000#64 : CmdWord).extractLsb' 0 60 ≠ 0#60) ∧
    (block 16).faulted = false ∧ CmdWord.wf 0x7800000000000000#64 = false := by decide

/-- The two sides of each bound on a number: the largest accepted, its word worked out from R50, and one more refused. -/
theorem test_asm_bounds :
    assemble (.encBegin 255 255 0xFFFFFFFF) = some [0x1FFFF000FFFFFFFF#64] ∧ assemble (.encBegin 256 0 0) = none ∧
    assemble (.encBegin 0 0 0x100000000) = none ∧ assemble (.encData 255) = some [0x20000000000000FF#64] ∧
    assemble (.encData 256) = none ∧ assemble (.encPoll 255 255) = some [0x3FFFF00000000000#64] ∧
    assemble (.encPoll 0 256) = none ∧ assemble (.parseBuf [255, 256]) = none := by decide

/-- The two sides of each bound on a payload: 65535 and 65536, 0xFFFFFFFF and one more. -/
theorem witness_AssemblerLinesExpandAsWritten :
    (List.replicate 65535 0#8).length ≤ 65535 ∧
    (65535 < (List.replicate 65536 0#8).length ∧ (List.replicate 65536 0#8).length ≤ 0xFFFFFFFF) ∧
    (65535 < (List.replicate 0xFFFFFFFF 0#8).length ∧ (List.replicate 0xFFFFFFFF 0#8).length ≤ 0xFFFFFFFF) ∧
    0xFFFFFFFF < (List.replicate 0x100000000 0#8).length := by
  simp only [List.length_replicate]; decide

theorem witness_StepRunsTheDecodedCommand :
    (withWord 0x5000000000000000#64 (block 16)).faulted = false ∧
    (withWord 0x5000000000000000#64 (block 16)).port = [.command 0x5000000000000000#64] ∧
    decode 0x5000000000000000#64 = .ok .ckClear := by decide

theorem witness_StepWithNothingOnThePort : (block 16).faulted = false ∧ (block 16).port = [] := by decide

theorem witness_ResetInputAppliesReset : (encBlock 2#16).faulted = false := by decide

/-- A step that faults, a state that has faulted, and a run from reset whose second step faults. -/
theorem witness_FaultsAreFinal :
    faultOf (step (withWord 0#64 (block 16))) = some .reservedEncoding ∧
    ({ block 16 with faulted := true } : State).faulted = true ∧
    faultOf (step (runSteps 1 { State.reset with
      port := [.command 0x5000000000000000#64, .command 0x2000000000000006#64] })) = some .encNoFrame := by decide

theorem witness_PortRunIsCommandRun : (block 16).faulted = false := by decide

theorem witness_FaultsExactlyOnHostMisuse :
    ParserInv (rxBlock 16 .readPayload 2#16 1#16 Acc.zero [(0, 6#8)]) ∧
    (withWord 0x2000000000000006#64 (block 16)).faulted = false ∧
    (withWord 0x2000000000000006#64 (block 16)).port = [.command 0x2000000000000006#64] ∧
    faultOf (step (withWord 0x2000000000000006#64 (block 16))) = some .encNoFrame := by decide

theorem witness_DecodeThenOpenFrameThenLength :
    (encBlock 2#16).faulted = false ∧ decode 0#64 = .error .reservedOpcode ∧ (encBlock 2#16).enc.eState = .payload ∧
    65535 < (65536#32 : LenReq).toNat := by decide

theorem witness_CkClearClearsCku : (0x5000000000000001#64 : CmdWord).extractLsb' 60 4 = 5#4 ∧
    (0x5000000000000001#64 : CmdWord).extractLsb' 0 60 ≠ 0#60 := by decide

theorem witness_CkUpdateAddsToCku : (block 16).cku = ⟨0#8, 0#8⟩ ∧
    (0x6000000000000100#64 : CmdWord).extractLsb' 60 4 = 6#4 ∧
    (0x6000000000000100#64 : CmdWord).extractLsb' 8 52 ≠ 0#52 := by decide

theorem witness_ChecksumClosedForm : [1#8, 0#8].Perm [0#8, 1#8] := by decide

/-- The requests at the edges of the cases: 0, 1, 65535, 65536 and the largest. -/
theorem witness_EncBeginOpensAFrame :
    (encBlock 2#16).enc.eState = .payload ∧ (block 16).enc.eState = .idle ∧
    65535 < (65536#32 : LenReq).toNat ∧ 65535 < (0xFFFFFFFF#32 : LenReq).toNat ∧
    (1 ≤ (1#32 : LenReq).toNat ∧ (1#32 : LenReq).toNat ≤ 65535) ∧
    (1 ≤ (65535#32 : LenReq).toNat ∧ (65535#32 : LenReq).toNat ≤ 65535) ∧
    (0x1060180000000000#64 : CmdWord).extractLsb' 60 4 = 1#4 ∧
    (0x1060180000000000#64 : CmdWord).extractLsb' 32 12 ≠ 0#12 := by decide

/-- Bytes owed at the edges of the cases: 1, 2 and 65535. -/
theorem witness_EncDataSendsAPayloadByte :
    (block 16).enc.eState = .idle ∧
    ((encBlock 2#16).enc.eState = .payload ∧ 2 ≤ (encBlock 2#16).enc.eRemaining.toNat) ∧
    2 ≤ (encBlock 65535#16).enc.eRemaining.toNat ∧
    ((encBlock 1#16).enc.eState = .payload ∧ (encBlock 1#16).enc.eRemaining.toNat = 1) ∧
    (0x2010000000000006#64 : CmdWord).extractLsb' 60 4 = 2#4 ∧
    (0x2010000000000006#64 : CmdWord).extractLsb' 8 52 ≠ 0#52 := by decide

theorem witness_EncPollSendsAnEmptyFrame :
    (encBlock 1#16).enc.eState = .payload ∧ (block 16).enc.eState = .idle ∧
    (0x3060100000000001#64 : CmdWord).extractLsb' 60 4 = 3#4 ∧
    (0x3060100000000001#64 : CmdWord).extractLsb' 0 32 ≠ 0#32 := by decide

/-- The commands of ENC_FRAME 0x05, 0x01, [06 01] with commands of the other units between. -/
def mixed : List Instr :=
  [.parseByte 0xB5#8, .encBegin 0x05#8 0x01#8 2#32, .ckUpdate 1#8, .encData 0x06#8, .parseByte 0x62#8, .encData 0x01#8,
    .ckClear]

theorem witness_StreamedEncodingIsEncodeFrame :
    (block 16).enc.eState = .idle ∧ ParserInv (block 16) ∧ (∀ x ∈ mixed, x ≠ .reset) ∧
    mixed.filter Instr.isEncoder = .encBegin 0x05#8 0x01#8 (BitVec.ofNat 32 [0x06#8, 0x01#8].length) ::
      [0x06#8, 0x01#8].map .encData := by decide

theorem witness_StreamedEncodingIsEncodeFrame_bounds :
    (List.replicate 65535 0#8).length ≤ 65535 ∧ 65535 < (List.replicate 65536 0#8).length ∧
    (List.replicate 65536 0#8).length ≤ 0xFFFFFFFF := by
  simp only [List.length_replicate]; decide

theorem witness_PollIsTheEmptyFrame : (block 16).enc.eState = .idle := by decide

theorem witness_EncBusyTellsWhetherAFrameIsOpen :
    encBusy (block 16) = false ∧ (nextOf (exec (.encBegin 0x05#8 0x01#8 1#32) (block 16))).isSome = true ∧
    encBusy (encBlock 1#16) = true ∧ EncoderInv (encBlock 1#16) ∧
    (nextOf (exec (.encData 0#8) (encBlock 1#16))).isSome = true := by decide

theorem witness_InvalidLengthChangesNoEncoderState :
    (block 16).enc.eState = .idle ∧ 65535 < (65536#32 : LenReq).toNat := by decide

/-- Each form runs where its size is stated: requests of 0, 65535 and 65536, the last byte and one before it. -/
theorem witness_EncoderOutputSizes :
    (nextOf (exec (.encBegin 1#8 2#8 0#32) (block 16))).isSome = true ∧
    (nextOf (exec (.encBegin 1#8 2#8 65535#32) (block 16))).isSome = true ∧
    (nextOf (exec (.encBegin 1#8 2#8 65536#32) (block 16))).isSome = true ∧
    (EncoderInv (encBlock 1#16) ∧ (nextOf (exec (.encData 0#8) (encBlock 1#16))).isSome = true) ∧
    (EncoderInv (encBlock 2#16) ∧ (nextOf (exec (.encData 0#8) (encBlock 2#16))).isSome = true) ∧
    (nextOf (exec (.encPoll 1#8 2#8) (block 16))).isSome = true ∧
    (Instr.isEncoder .ckClear = false ∧ (nextOf (exec .ckClear (block 16))).isSome = true) := by decide

theorem witness_EncoderOutputSizes_frame : ∃ bs, encodeFrame 1#8 2#8 [3#8] = .ok bs := ⟨_, rfl⟩

theorem witness_SeekSync1WaitsForB5 : (block 16).rx.pState = .seekSync1 := by decide

theorem witness_SeekSync2WaitsFor62 : (rxBlock 16 .seekSync2 0#16 0#16 Acc.zero []).rx.pState = .seekSync2 ∧
    (block 16).rx.pState = .seekSync1 := by decide

theorem witness_ClassAndIdBytesAreTaken :
    (rxBlock 16 .readClass 0#16 0#16 Acc.zero []).rx.pState = .readClass ∧
    (rxBlock 16 .readId 0#16 0#16 Acc.zero []).rx.pState = .readId := by decide

theorem witness_LengthLowByteIsTaken : (rxBlock 16 .readLenLo 0#16 0#16 Acc.zero []).rx.pState = .readLenLo := by decide

theorem witness_LengthHighByteIsChecked :
    (rxBlock 16 .readLenHi 0x0010#16 0#16 Acc.zero []).rx.pState = .readLenHi := by decide

/-- The last payload byte of the longest payload, and the first of two. -/
theorem witness_PayloadByteIsStored :
    let s := rxBlock 16 .readPayload 16#16 1#16 Acc.zero []
    let t := rxBlock 16 .readPayload 2#16 2#16 Acc.zero []
    (s.rx.pState = .readPayload ∧ 1 ≤ s.rx.pRemaining.toNat ∧ s.rx.pRemaining.toNat ≤ s.rx.pLen.toNat ∧
      s.rx.pLen.toNat ≤ s.maxPayload.val) ∧
    (t.rx.pState = .readPayload ∧ 1 ≤ t.rx.pRemaining.toNat ∧ t.rx.pRemaining.toNat ≤ t.rx.pLen.toNat ∧
      t.rx.pLen.toNat ≤ t.maxPayload.val) := by decide

theorem witness_CkAByteIsKept : (rxBlock 16 .readCkA 0#16 0#16 Acc.zero []).rx.pState = .readCkA := by decide

/-- An empty payload at MAX_PAYLOAD = 0, a payload of two bytes, and a mismatch in each byte. -/
theorem witness_CkBByteSettlesTheFrame :
    let s := rxBlock 0 .readCkB 0#16 0#16 ⟨0x07#8, 0x1B#8⟩ []
    let t := rxBlock 2 .readCkB 2#16 0#16 ⟨0x07#8, 0x38#8⟩ [(0, 6#8), (1, 1#8)]
    (s.rx.pState = .readCkB ∧ s.rx.pLen.toNat ≤ s.maxPayload.val ∧ s.rx.pRxCka = s.rx.pck.a ∧ 0x1B#8 = s.rx.pck.b) ∧
    (t.rx.pLen.toNat ≤ t.maxPayload.val ∧ [6#8, 1#8].length = t.rx.pLen.toNat ∧
      (∀ k < [6#8, 1#8].length, t.rx.pbuf.read k = [6#8, 1#8][k]?) ∧ t.rx.pRxCka = t.rx.pck.a) ∧
    0x1A#8 ≠ s.rx.pck.b ∧ (rxBlock 16 .readCkB 0#16 0#16 ⟨0x08#8, 0x1B#8⟩ []).rx.pRxCka ≠ 0x08#8 := by decide

theorem witness_ClassAndIdNeverSteerTheParser :
    (nextOf (exec (.parseByte 0x1B#8) (rxBlock 16 .readCkB 0#16 0#16 ⟨0x07#8, 0x1B#8⟩ []))).isSome = true := by decide

/-- A payload of MAX_PAYLOAD bytes, and a length one above MAX_PAYLOAD. -/
theorem witness_FrameFieldsAreNeverSync :
    let s := rxBlock 2 .readClass 0#16 0#16 Acc.zero []
    s.rx.pState = .readClass ∧ [0xB5#8, 0x62#8].length = (0#8 : Byte).toNat * 256 + (2#8 : Byte).toNat ∧
    [0xB5#8, 0x62#8].length ≤ s.maxPayload.val ∧
    s.maxPayload.val < (0#8 : Byte).toNat * 256 + (3#8 : Byte).toNat := by decide

theorem witness_ParserIsNeverStuck :
    let s := rxBlock 2 .readClass 0#16 0#16 Acc.zero []
    ParserInv s ∧ s.rx.pState ≠ .seekSync1 ∧ s.rx.pState ≠ .seekSync2 ∧
    (List.replicate 8 0#8).length = 6 + s.maxPayload.val := by decide

theorem witness_ParserIsNeverStuck_error :
    (nextOf (exec (.parseByte 0#8) (rxBlock 16 .readLenHi 0x0011#16 0#16 Acc.zero []))).map (·.events) =
      some ((rxBlock 16 .readLenHi 0x0011#16 0#16 Acc.zero []).events ++ [.error .frameTooLarge]) := by decide

/-- Both outcomes of a length of 0xFFFF: at the largest MAX_PAYLOAD and one below it. -/
theorem witness_BufferingIsBounded :
    let s := rxBlock 65534 .readLenHi 0x00FF#16 0#16 Acc.zero []
    let t := rxBlock 65535 .readLenHi 0x00FF#16 0#16 Acc.zero []
    ParserInv s ∧ s.rx.pState = .readLenHi ∧ s.rx.pLen.toNat % 256 = 0xFF ∧ s.maxPayload.val < 65535 ∧
    t.rx.pState = .readLenHi ∧ t.rx.pLen.toNat % 256 = 0xFF ∧ t.maxPayload.val = 65535 := by decide

/-- A payload of MAX_PAYLOAD bytes from each sync-seeking state, and one a byte longer. -/
theorem witness_ParseOfEncodedFrameIsTheFrame :
    (block 1).rx.pState = .seekSync1 ∧ (rxBlock 1 .seekSync2 0#16 0#16 Acc.zero []).rx.pState = .seekSync2 ∧
    [3#8].length ≤ (block 1).maxPayload.val ∧ (block 1).maxPayload.val < [3#8, 4#8].length ∧
    encodeFrame 1#8 2#8 [3#8] = .ok (frameBytes 1#8 2#8 [3#8]) ∧
    encodeFrame 1#8 2#8 [3#8, 4#8] = .ok (frameBytes 1#8 2#8 [3#8, 4#8]) :=
  ⟨rfl, rfl, by decide, by decide, rfl, rfl⟩

/-- ENC-F2's frame in three chunks, one of them empty, at MAX_PAYLOAD = 2, from each sync-seeking state. -/
theorem witness_ChunksDoNotMatter :
    (block 2).rx.pState = .seekSync1 ∧ (rxBlock 2 .seekSync2 0#16 0#16 Acc.zero []).rx.pState = .seekSync2 ∧
    [0x06#8, 0x01#8].length ≤ (block 2).maxPayload.val ∧
    encodeFrame 0x05#8 0x01#8 [0x06#8, 0x01#8] =
      .ok [[0xB5#8, 0x62#8, 0x05#8, 0x01#8, 0x02#8], [], [0x00#8, 0x06#8, 0x01#8, 0x0F#8, 0x38#8]].flatten :=
  ⟨rfl, rfl, by decide, rfl⟩

/-- RX-22's bytes as the noise. -/
theorem witness_NoiseBeforeAFrameIsIgnored :
    (block 16).rx.pState = .seekSync1 ∧
    hasSyncPair [0x00#8, 0x62#8, 0xB5#8, 0xB5#8, 0x00#8, 0x62#8, 0xB5#8] = false ∧
    encodeFrame 6#8 1#8 [] = .ok (frameBytes 6#8 1#8 []) := ⟨rfl, by decide, rfl⟩

theorem witness_CorruptionIsRecoveredFrom :
    (block 16).rx.pState = .seekSync1 ∧ encodeFrame 6#8 1#8 [] = .ok (frameBytes 6#8 1#8 []) ∧
    (frameBytes 6#8 1#8 []).getLast? ≠ some 0x1A#8 := ⟨rfl, rfl, by decide⟩

/-- ENC-F2's frame. -/
theorem witness_ValidFramesAreTheEncodedOnes :
    let f : List Byte := [0xB5#8, 0x62#8, 0x05#8, 0x01#8, 0x02#8, 0x00#8, 0x06#8, 0x01#8, 0x0F#8, 0x38#8]
    validFrame f = true ∧ (block 2).rx.pState = .seekSync1 ∧ (declaredLen f).toNat ≤ (block 2).maxPayload.val := by
  decide

theorem witness_ResetCommandResetsTheBlock :
    ({ block 16 with faulted := true } : State).faulted = true ∧
    (0x7000000000000001#64 : CmdWord).extractLsb' 60 4 = 7#4 ∧
    (0x7000000000000001#64 : CmdWord).extractLsb' 0 60 ≠ 0#60 := by decide

/-- A step that posts a frame; the second conjunct is a step that posts nothing. -/
theorem witness_EventsArePostedByTheirCommands :
    (nextOf (exec (.parseByte 0x1B#8) (rxBlock 16 .readCkB 0#16 0#16 ⟨0x07#8, 0x1B#8⟩ []))).map (·.events) =
      some ((rxBlock 16 .readCkB 0#16 0#16 ⟨0x07#8, 0x1B#8⟩ []).events ++ [.frame 0x06#8 0x01#8 []]) ∧
    (nextOf (exec .ckClear (block 16))).isSome = true := by decide

theorem witness_AtMostOneEventAndNeverWithBytes :
    (nextOf (step (withWord 0x1060100000010000#64 (block 16)))).isSome = true := by decide

/-- A command for each of the three errors. -/
theorem witness_ErrorCodesAreAsListed :
    (nextOf (exec (.encBegin 6#8 1#8 65536#32) (block 16))).map (·.events) = some [.error .invalidLength] ∧
    (nextOf (exec (.parseByte 0x1A#8) (rxBlock 16 .readCkB 0#16 0#16 ⟨0x07#8, 0x1B#8⟩ []))).map (·.events) =
      some [.error .checksumMismatch] ∧
    (nextOf (exec (.parseByte 0#8) (rxBlock 16 .readLenHi 0x0011#16 0#16 Acc.zero []))).map (·.events) =
      some [.error .frameTooLarge] := by decide

theorem witness_OutputStreamsOnlyGrow :
    (nextOf (step (withWord 0x7000000000000000#64 { block 16 with tx := [1#8] }))).isSome = true := by decide

theorem witness_MaxPayloadNeverChanges :
    (nextOf (step (withWord 0x7000000000000000#64 (block 16)))).isSome = true := by decide

theorem witness_CommandsWriteOnlyTheirUnit :
    ((nextOf (exec (.encPoll 6#8 1#8) (block 16))).isSome = true ∧ Instr.isEncoder (.encPoll 6#8 1#8) = true) ∧
    ((nextOf (exec (.parseByte 0#8) (block 16))).isSome = true ∧ Instr.isParser (.parseByte 0#8) = true) ∧
    ((nextOf (exec .ckClear (block 16))).isSome = true ∧ Instr.isChecksum .ckClear = true) := by decide

/-- For each unit, a second state that differs outside it. -/
theorem witness_CommandsReadOnlyTheirUnit :
    (rxBlock 2 .readCkA 1#16 0#16 ⟨1#8, 2#8⟩ []).enc = (block 16).enc ∧
    ({ block 16 with cku := ⟨1#8, 2#8⟩ } : State).rx = (block 16).rx ∧
    ({ block 16 with cku := ⟨1#8, 2#8⟩ } : State).maxPayload = (block 16).maxPayload ∧
    ({ block 16 with cku := ⟨1#8, 2#8⟩ } : State).freeEpoch = (block 16).freeEpoch ∧
    (encBlock 2#16).cku = (block 16).cku := by decide

theorem witness_PbufFrame :
    (nextOf (exec (.parseByte 6#8) (rxBlock 16 .readPayload 2#16 2#16 Acc.zero []))).isSome = true ∧
    (nextOf (exec (.parseByte 6#8) (rxBlock 16 .readCkA 2#16 0#16 Acc.zero []))).isSome = true ∧
    (nextOf (exec .ckClear (block 16))).isSome = true ∧ Instr.isParser .ckClear = false := by decide

/-- A pair that posts an event of each unit, in an order that changes. -/
theorem witness_UnitsCommute :
    Instr.isEncoder (.encBegin 6#8 1#8 65536#32) = true ∧ Instr.isParser (.parseByte 0#8) = true ∧
    (nextOf (runInstrs [.encBegin 6#8 1#8 65536#32, .parseByte 0#8]
      (rxBlock 16 .readLenHi 0x0011#16 0#16 Acc.zero []))).map (·.events) =
        some [.error .invalidLength, .error .frameTooLarge] := by decide

/-- A state inside a frame that meets both invariants, and a step from it. -/
theorem witness_EveryStepKeepsTheInvariants :
    let s := rxBlock 16 .readPayload 2#16 1#16 Acc.zero [(0, 6#8)]
    Inv s ∧ (nextOf (step (withWord 0x4000000000000001#64 s))).isSome = true := by decide

theorem witness_IdleEncoderHasSentWholeFrames :
    (block 16).enc.eState = .idle ∧ (∀ x ∈ mixed, x ≠ .reset) ∧
    (nextOf (runInstrs mixed (block 16))).map (·.enc.eState) = some .idle := by decide

/-- Two states that differ in every register R29 leaves unspecified. -/
theorem witness_UnspecifiedResetValuesAreUnobservable :
    let s := rxBlock 16 .seekSync1 2#16 1#16 ⟨1#8, 2#8⟩ [(0, 6#8)]
    let t := { block 16 with freeEpoch := 1 }
    s.enc = t.enc ∧ s.rx.pState = t.rx.pState ∧ s.cku = t.cku ∧ s.maxPayload = t.maxPayload ∧ s.faulted = t.faulted ∧
    s.port = t.port ∧ s.tx = t.tx ∧ s.events = t.events ∧ s.rx.pState = .seekSync1 ∧ s.rx ≠ t.rx := by decide

end Sys2Proof.Tests
end

section
/-! MAX_PAYLOAD is fixed when the block is built (R5, R27): the states an operation builds keep it, so every command
does, and so every step. -/

namespace Sys2Proof.Machine

/-! ## The states an operation builds keep MAX_PAYLOAD -/

@[simp] theorem emitEmptyFrame_maxPayload (cls id : Byte) (s : State) :
    (emitEmptyFrame cls id s).maxPayload = s.maxPayload := rfl
@[simp] theorem openFrame_maxPayload (cls id : Byte) (n : Half) (s : State) :
    (openFrame cls id n s).maxPayload = s.maxPayload := rfl
@[simp] theorem emitPayloadByte_maxPayload (b : Byte) (s : State) :
    (emitPayloadByte b s).maxPayload = s.maxPayload := rfl
@[simp] theorem closeFrame_maxPayload (s : State) : (closeFrame s).maxPayload = s.maxPayload := rfl

@[simp] theorem parseSeekSync1_maxPayload (b : Byte) (s : State) :
    (parseSeekSync1 b s).maxPayload = s.maxPayload := by
  unfold parseSeekSync1
  split
  · exact setPState_maxPayload ..
  · rfl

@[simp] theorem parseSeekSync2_maxPayload (b : Byte) (s : State) :
    (parseSeekSync2 b s).maxPayload = s.maxPayload := by
  unfold parseSeekSync2
  split
  · rfl
  · split <;> exact setPState_maxPayload ..

@[simp] theorem parseReadClass_maxPayload (b : Byte) (s : State) :
    (parseReadClass b s).maxPayload = s.maxPayload := rfl
@[simp] theorem parseReadId_maxPayload (b : Byte) (s : State) :
    (parseReadId b s).maxPayload = s.maxPayload := rfl
@[simp] theorem parseReadLenLo_maxPayload (b : Byte) (s : State) :
    (parseReadLenLo b s).maxPayload = s.maxPayload := rfl

/-- The length check reads MAX_PAYLOAD and writes nothing to it, whichever way it goes (R90). -/
@[simp] theorem parseReadLenHi_maxPayload (b : Byte) (s : State) :
    (parseReadLenHi b s).maxPayload = s.maxPayload := by
  simp only [parseReadLenHi]
  split
  · simp
  · split <;> simp

@[simp] theorem storePayloadByte_maxPayload (b : Byte) (s : State) :
    (storePayloadByte b s).maxPayload = s.maxPayload := rfl
@[simp] theorem parseReadCkA_maxPayload (b : Byte) (s : State) :
    (parseReadCkA b s).maxPayload = s.maxPayload := rfl

/-! ## Each command keeps MAX_PAYLOAD -/

theorem execEncBegin_keeps_maxPayload {cls id : Byte} {len : LenReq} {s t : State}
    (h : execEncBegin cls id len s = .next t) : t.maxPayload = s.maxPayload := by
  obtain ⟨-, ⟨-, rfl⟩ | ⟨-, -, rfl⟩ | ⟨-, -, rfl⟩⟩ := execEncBegin_next h
  · exact postError_maxPayload ..
  · exact emitEmptyFrame_maxPayload ..
  · exact openFrame_maxPayload ..

theorem execEncData_keeps_maxPayload {b : Byte} {s t : State} (h : execEncData b s = .next t) :
    t.maxPayload = s.maxPayload := by
  obtain ⟨-, ⟨-, rfl⟩ | ⟨-, rfl⟩⟩ := execEncData_next h
  · simp
  · exact emitPayloadByte_maxPayload ..

theorem execEncPoll_keeps_maxPayload {cls id : Byte} {s t : State} (h : execEncPoll cls id s = .next t) :
    t.maxPayload = s.maxPayload := by
  obtain ⟨-, rfl⟩ := execEncPoll_next h
  exact emitEmptyFrame_maxPayload ..

theorem parseReadCkB_keeps_maxPayload {b : Byte} {s t : State} (h : parseReadCkB b s = .next t) :
    t.maxPayload = s.maxPayload := by
  obtain ⟨-, -, -, rfl⟩ | ⟨-, rfl⟩ := parseReadCkB_next h <;> simp

theorem execParseByte_keeps_maxPayload {b : Byte} {s t : State} (h : execParseByte b s = .next t) :
    t.maxPayload = s.maxPayload := by
  obtain ⟨-, rfl⟩ | ⟨-, rfl⟩ | ⟨-, rfl⟩ | ⟨-, rfl⟩ | ⟨-, rfl⟩ | ⟨-, rfl⟩ | ⟨-, -, rfl⟩ | ⟨-, rfl⟩ | ⟨-, hckB⟩ :=
    execParseByte_next h
  · exact parseSeekSync1_maxPayload ..
  · exact parseSeekSync2_maxPayload ..
  · exact parseReadClass_maxPayload ..
  · exact parseReadId_maxPayload ..
  · exact parseReadLenLo_maxPayload ..
  · exact parseReadLenHi_maxPayload ..
  · exact storePayloadByte_maxPayload ..
  · exact parseReadCkA_maxPayload ..
  · exact parseReadCkB_keeps_maxPayload hckB

theorem exec_keeps_maxPayload {i : Instr} {s t : State} (h : exec i s = .next t) :
    t.maxPayload = s.maxPayload := by
  cases i with
  | encBegin cls id len => exact execEncBegin_keeps_maxPayload h
  | encData b => exact execEncData_keeps_maxPayload h
  | encPoll cls id => exact execEncPoll_keeps_maxPayload h
  | parseByte b => exact execParseByte_keeps_maxPayload h
  | ckClear => cases h; rfl
  | ckUpdate b => cases h; rfl
  | reset => cases h; exact applyReset_maxPayload s

/-! ## Every step keeps MAX_PAYLOAD -/

/-- Settles O49: an idle step changes nothing, and neither the reset input nor a command writes MAX_PAYLOAD. -/
theorem maxPayloadNeverChanges : Obligations.MaxPayloadNeverChanges := by
  unfold Obligations.MaxPayloadNeverChanges
  intro s t h
  obtain ⟨-, ⟨-, rfl⟩ | ⟨rest, -, rfl⟩ | ⟨w, rest, i, -, -, hexec⟩⟩ := step_next h
  · rfl
  · exact applyReset_maxPayload { s with port := rest }
  · have hkeep := exec_keeps_maxPayload hexec
    exact hkeep

end Sys2Proof.Machine
end

section
/-! What a command reads (R11): the outcome of a unit's command on a whole state is its outcome on that unit's state
alone, put back over the rest. So what one unit's command does cannot depend on another unit or on the streams. -/

namespace Sys2Proof.Machine

open Sys2Proof

/-! ## Outcomes mapped over their next state -/

/-- The outcome with its next state, if it answers one, changed by `f`. -/
def mapNext (f : State → State) : Host.Outcome State Fault Refusal → Host.Outcome State Fault Refusal
  | .next t => .next (f t)
  | .fault r => .fault r
  | .refused r => .refused r

@[simp] theorem mapNext_next (f : State → State) (t : State) : mapNext f (.next t) = .next (f t) := rfl
@[simp] theorem mapNext_fault (f : State → State) (r : Fault) : mapNext f (.fault r) = .fault r := rfl
@[simp] theorem mapNext_refused (f : State → State) (r : Refusal) : mapNext f (.refused r) = .refused r := rfl

@[simp] theorem mapNext_mapNext (f g : State → State) (o : Host.Outcome State Fault Refusal) :
    mapNext f (mapNext g o) = mapNext (fun t => f (g t)) o := by
  cases o <;> rfl

theorem mapNext_eq_next {f : State → State} {o : Host.Outcome State Fault Refusal} {t : State}
    (h : mapNext f o = .next t) : ∃ r, o = .next r ∧ t = f r := by
  cases o with
  | next r => cases h; exact ⟨r, rfl, rfl⟩
  | fault r => cases h
  | refused r => cases h

/-! ## One unit alone, and its result put back -/

/-- A machine that holds nothing but this encoder. -/
def encAlone (e : Encoder) : State := { State.reset with enc := e }

/-- A machine that holds nothing but this parser, with what reading PBUF rests on. -/
def rxAlone (p : Parser) (cap : Fin 65536) (epoch : Nat) : State :=
  { State.reset with rx := p, maxPayload := cap, freeEpoch := epoch }

/-- A machine that holds nothing but this CKU. -/
def ckuAlone (x : Acc) : State := { State.reset with cku := x }

/-- The encoder of `r` in place of that of `s`, and the outputs of `r` after those of `s`. -/
def encOver (s r : State) : State := { s with enc := r.enc, tx := s.tx ++ r.tx, events := s.events ++ r.events }

/-- The parser of `r` in place of that of `s`, and the events of `r` after those of `s`. -/
def rxOver (s r : State) : State := { s with rx := r.rx, events := s.events ++ r.events }

/-- The CKU of `r` in place of that of `s`. -/
def ckuOver (s r : State) : State := { s with cku := r.cku }

@[simp] theorem rxAlone_rx (p : Parser) (cap : Fin 65536) (epoch : Nat) : (rxAlone p cap epoch).rx = p := rfl
@[simp] theorem rxAlone_maxPayload (p : Parser) (cap : Fin 65536) (epoch : Nat) :
    (rxAlone p cap epoch).maxPayload = cap := rfl

theorem rxOver_rxAlone (s : State) : rxOver s (rxAlone s.rx s.maxPayload s.freeEpoch) = s := by
  simp [rxOver, rxAlone, State.reset]

/-! ## An encoder command sees the encoder only -/

theorem execEncBegin_local (cls id : Byte) (len : LenReq) (s : State) :
    execEncBegin cls id len s = mapNext (encOver s) (execEncBegin cls id len (encAlone s.enc)) := by
  unfold execEncBegin
  cases hst : s.enc.eState with
  | payload => simp [encAlone, hst]
  | idle =>
    by_cases hlong : reqTooLong len
    · simp only [encAlone, hst, if_pos hlong, mapNext_next]
      simp [encOver, postError, post, State.reset]
    · by_cases hzero : reqLen len = 0#16
      · simp [encAlone, hst, hlong, hzero, encOver, emitEmptyFrame, emit, State.reset]
      · simp [encAlone, hst, hlong, hzero, encOver, openFrame, emit, State.reset]

theorem execEncData_local (b : Byte) (s : State) :
    execEncData b s = mapNext (encOver s) (execEncData b (encAlone s.enc)) := by
  unfold execEncData
  cases hst : s.enc.eState with
  | idle => simp [encAlone, hst]
  | payload =>
    by_cases hlast : s.enc.eRemaining - 1#16 = 0#16
    · simp [encAlone, hst, hlast, encOver, closeFrame, emitPayloadByte, emit, State.reset]
    · simp [encAlone, hst, hlast, encOver, emitPayloadByte, emit, State.reset]

theorem execEncPoll_local (cls id : Byte) (s : State) :
    execEncPoll cls id s = mapNext (encOver s) (execEncPoll cls id (encAlone s.enc)) := by
  unfold execEncPoll
  cases hst : s.enc.eState with
  | payload => simp [encAlone, hst]
  | idle => simp [encAlone, hst, encOver, emitEmptyFrame, emit, State.reset]

theorem exec_encoder_local {i : Instr} (hi : i.isEncoder = true) (s : State) :
    exec i s = mapNext (encOver s) (exec i (encAlone s.enc)) := by
  cases i with
  | encBegin cls id len => exact execEncBegin_local cls id len s
  | encData b => exact execEncData_local b s
  | encPoll cls id => exact execEncPoll_local cls id s
  | parseByte b => cases hi
  | ckClear => cases hi
  | ckUpdate b => cases hi
  | reset => cases hi

/-! ## PARSE_BYTE sees the parser and MAX_PAYLOAD only -/

theorem parseSeekSync1_local (b : Byte) (s : State) :
    parseSeekSync1 b s = rxOver s (parseSeekSync1 b (rxAlone s.rx s.maxPayload s.freeEpoch)) := by
  by_cases h1 : b = Config.sync1
  · simp [parseSeekSync1, h1, rxOver, rxAlone, setPState, State.reset]
  · simp [parseSeekSync1, h1, rxOver_rxAlone]

theorem parseSeekSync2_local (b : Byte) (s : State) :
    parseSeekSync2 b s = rxOver s (parseSeekSync2 b (rxAlone s.rx s.maxPayload s.freeEpoch)) := by
  unfold parseSeekSync2
  by_cases h2 : b = Config.sync2
  · simp [h2, rxOver, rxAlone, State.reset]
  · by_cases h1 : b = Config.sync1
    · simp only [if_neg h2, if_pos h1]
      simp [rxOver, rxAlone, setPState, State.reset]
    · simp [h2, h1, rxOver, rxAlone, setPState, State.reset]

theorem parseReadLenHi_local (b : Byte) (s : State) :
    parseReadLenHi b s = rxOver s (parseReadLenHi b (rxAlone s.rx s.maxPayload s.freeEpoch)) := by
  simp only [parseReadLenHi]
  by_cases hlong : s.maxPayload.val < (setLenHi s.rx.pLen b).toNat
  · simp [rxAlone, hlong, rxOver, setPState, postError, post, updatePck, State.reset]
  · by_cases hzero : setLenHi s.rx.pLen b = 0#16
    · simp [rxAlone, hzero, rxOver, setPState, updatePck, State.reset]
    · simp [rxAlone, hlong, hzero, rxOver, updatePck, State.reset]

theorem parseReadPayload_local (b : Byte) (s : State) :
    parseReadPayload b s = mapNext (rxOver s) (parseReadPayload b (rxAlone s.rx s.maxPayload s.freeEpoch)) := by
  have hindex : payloadIndex (rxAlone s.rx s.maxPayload s.freeEpoch) = payloadIndex s := rfl
  simp only [parseReadPayload, pbufHas, hindex, rxAlone_maxPayload]
  by_cases hin : payloadIndex s < s.maxPayload.val
  · simp only [if_pos hin, mapNext_next, storePayloadByte, hindex]
    simp [rxAlone, rxOver, updatePck, memWrite, State.reset]
    rfl
  · simp [hin]

theorem parseReadCkB_local (b : Byte) (s : State) :
    parseReadCkB b s = mapNext (rxOver s) (parseReadCkB b (rxAlone s.rx s.maxPayload s.freeEpoch)) := by
  have hpayload : framePayload (rxAlone s.rx s.maxPayload s.freeEpoch) = framePayload s := rfl
  simp only [parseReadCkB, emitFrameEvent, payloadFits, hpayload]
  by_cases hck : s.rx.pRxCka = s.rx.pck.a ∧ b = s.rx.pck.b
  · by_cases hfit : s.rx.pLen.toNat ≤ s.maxPayload.val
    · simp [rxAlone, hck, hfit, rxOver, setPState, post, State.reset]
    · simp [rxAlone, hck, hfit]
  · simp [rxAlone, hck, rxOver, setPState, postError, post, State.reset]

theorem execParseByte_local (b : Byte) (s : State) :
    execParseByte b s = mapNext (rxOver s) (execParseByte b (rxAlone s.rx s.maxPayload s.freeEpoch)) := by
  unfold execParseByte
  cases hst : s.rx.pState with
  | seekSync1 => simp [rxAlone_rx, hst, parseSeekSync1_local b s]
  | seekSync2 => simp [rxAlone_rx, hst, parseSeekSync2_local b s]
  | readClass => simp [hst, rxAlone, rxOver, parseReadClass, setPState, updatePck, State.reset]
  | readId => simp [hst, rxAlone, rxOver, parseReadId, setPState, updatePck, State.reset]
  | readLenLo => simp [hst, rxAlone, rxOver, parseReadLenLo, setPState, updatePck, State.reset]
  | readLenHi => simp [rxAlone_rx, hst, parseReadLenHi_local b s]
  | readPayload => simpa [rxAlone_rx, hst] using parseReadPayload_local b s
  | readCkA => simp [hst, rxAlone, rxOver, parseReadCkA, State.reset]
  | readCkB => simpa [rxAlone_rx, hst] using parseReadCkB_local b s

theorem exec_parser_local {i : Instr} (hi : i.isParser = true) (s : State) :
    exec i s = mapNext (rxOver s) (exec i (rxAlone s.rx s.maxPayload s.freeEpoch)) := by
  cases i with
  | parseByte b => exact execParseByte_local b s
  | encBegin cls id len => cases hi
  | encData b => cases hi
  | encPoll cls id => cases hi
  | ckClear => cases hi
  | ckUpdate b => cases hi
  | reset => cases hi

/-! ## CK_CLEAR and CK_UPDATE see CKU only -/

theorem exec_checksum_local {i : Instr} (hi : i.isChecksum = true) (s : State) :
    exec i s = mapNext (ckuOver s) (exec i (ckuAlone s.cku)) := by
  cases i with
  | ckClear => rfl
  | ckUpdate b => rfl
  | encBegin cls id len => cases hi
  | encData b => cases hi
  | encPoll cls id => cases hi
  | parseByte b => cases hi
  | reset => cases hi

/-- Every command is one of a unit, or RESET (R11). -/
theorem Instr.unit_cases (i : Instr) :
    i.isEncoder = true ∨ i.isParser = true ∨ i.isChecksum = true ∨ i = .reset := by
  cases i <;> simp [Instr.isEncoder, Instr.isParser, Instr.isChecksum]

/-! ## What follows for a command that answers a next state -/

theorem exec_encoder_next {i : Instr} {s t : State} (hi : i.isEncoder = true) (h : exec i s = .next t) :
    ∃ r, exec i (encAlone s.enc) = .next r ∧ t = encOver s r :=
  mapNext_eq_next (exec_encoder_local hi s ▸ h)

theorem exec_parser_next {i : Instr} {s t : State} (hi : i.isParser = true) (h : exec i s = .next t) :
    ∃ r, exec i (rxAlone s.rx s.maxPayload s.freeEpoch) = .next r ∧ t = rxOver s r :=
  mapNext_eq_next (exec_parser_local hi s ▸ h)

theorem exec_checksum_next {i : Instr} {s t : State} (hi : i.isChecksum = true) (h : exec i s = .next t) :
    ∃ r, exec i (ckuAlone s.cku) = .next r ∧ t = ckuOver s r :=
  mapNext_eq_next (exec_checksum_local hi s ▸ h)

/-- Settles O51: a command's outcome on a state is its outcome on its unit alone, put over the rest, so two states with
the same unit answer alike. -/
theorem commandsReadOnlyTheirUnit : Obligations.CommandsReadOnlyTheirUnit := by
  unfold Obligations.CommandsReadOnlyTheirUnit
  refine ⟨fun i s t u h hi henc => ?_, fun i s t u h hi hrx hcap hepoch => ?_, fun i s t u h hi hcku => ?_⟩
  · obtain ⟨r, hr, rfl⟩ := exec_encoder_next hi h
    refine ⟨encOver u r, ?_, rfl, r.tx, rfl, rfl⟩
    rw [exec_encoder_local hi u, henc, hr, mapNext_next]
  · obtain ⟨r, hr, rfl⟩ := exec_parser_next hi h
    refine ⟨rxOver u r, ?_, rfl, r.events, rfl, rfl⟩
    rw [exec_parser_local hi u, hrx, hcap, hepoch, hr, mapNext_next]
  · obtain ⟨r, hr, rfl⟩ := exec_checksum_next hi h
    refine ⟨ckuOver u r, ?_, rfl⟩
    rw [exec_checksum_local hi u, hcku, hr, mapNext_next]

/-- A command appends to the output streams, or leaves them (R12). -/
theorem exec_outputs_grow {i : Instr} {s t : State} (h : exec i s = .next t) :
    s.tx <+: t.tx ∧ s.events <+: t.events := by
  obtain hi | hi | hi | rfl := Instr.unit_cases i
  · obtain ⟨r, -, rfl⟩ := exec_encoder_next hi h
    exact ⟨List.prefix_append _ _, List.prefix_append _ _⟩
  · obtain ⟨r, -, rfl⟩ := exec_parser_next hi h
    exact ⟨List.prefix_refl _, List.prefix_append _ _⟩
  · obtain ⟨r, -, rfl⟩ := exec_checksum_next hi h
    exact ⟨List.prefix_refl _, List.prefix_refl _⟩
  · cases h
    exact ⟨List.prefix_refl _, List.prefix_refl _⟩

/-- Settles O48: a unit's command puts its outputs after those already there, and RESET and the reset input put none. -/
theorem outputStreamsOnlyGrow : Obligations.OutputStreamsOnlyGrow := by
  unfold Obligations.OutputStreamsOnlyGrow
  intro s t h
  obtain ⟨-, ⟨-, rfl⟩ | ⟨rest, -, rfl⟩ | ⟨w, rest, i, -, -, hexec⟩⟩ := step_next h
  · exact ⟨List.prefix_refl _, List.prefix_refl _⟩
  · exact ⟨List.prefix_refl _, List.prefix_refl _⟩
  · exact exec_outputs_grow (s := { s with port := rest }) hexec

end Sys2Proof.Machine
end

section
/-! Steps and runs: what a step does for each head of the port (R10, R41, R117), that a command neither reads nor writes
the port, and that encoding then decoding gives the command back (R54, R58). -/

namespace Sys2Proof

/-- The decoder reads back the command the encoder wrote (R54, R58). -/
theorem decode_encode (i : Instr) : decode (encode i) = .ok i := by
  cases i <;>
    simp (disch := omega) [decode, acceptIf, encode, opField, clsField, idField, rsvField, opndField, opndHighField,
      dataField, bodyField, onlyData, extractLsb'_or_words, extractLsb'_place_same, extractLsb'_place_disjoint]

end Sys2Proof

namespace Sys2Proof.Machine

open Sys2Proof Sys2Proof.Safety

/-! ## A step, by what stands at the head of the port -/

theorem step_of_faulted {s : State} (h : s.faulted = true) : step s = .fault .stuckAfterFault := by
  simp [step, takeInput, h]

theorem step_of_port_nil {s : State} (hf : s.faulted = false) (hp : s.port = []) : step s = .next s := by
  simp [step, takeInput, hf, hp]

theorem step_of_resetInput {s : State} {rest : List PortInput} (hf : s.faulted = false)
    (hp : s.port = .resetInput :: rest) : step s = .next (applyReset { s with port := rest }) := by
  simp [step, takeInput, hf, hp]

theorem step_of_command {s : State} {w : CmdWord} {rest : List PortInput} {i : Instr} (hf : s.faulted = false)
    (hp : s.port = .command w :: rest) (hw : decode w = .ok i) : step s = exec i { s with port := rest } := by
  simp [step, takeInput, actionOfWord, hf, hp, hw]

/-- Settles O8: the step is the command's meaning on the state without the word. -/
theorem stepRunsTheDecodedCommand : Obligations.StepRunsTheDecodedCommand := by
  unfold Obligations.StepRunsTheDecodedCommand
  intro s w rest i hf hp hw
  exact step_of_command hf hp hw

/-- Settles O9: an empty port leaves nothing for the step to do. -/
theorem stepWithNothingOnThePort : Obligations.StepWithNothingOnThePort := by
  unfold Obligations.StepWithNothingOnThePort
  intro s hf hp
  exact step_of_port_nil hf hp

/-! ## Reset -/

theorem applyReset_hasResetValues (s : State) : HasResetValues (applyReset s) := ⟨rfl, rfl, rfl, rfl, rfl⟩

/-- The word of RESET, written out (R52), decodes to it. -/
theorem decode_resetWord : decode 0x7000000000000000#64 = .ok .reset := decode_encode .reset

/-- Settles O10: both the reset input and the word of RESET lead to `applyReset` of the state without them. -/
theorem resetInputAppliesReset : Obligations.ResetInputAppliesReset := by
  unfold Obligations.ResetInputAppliesReset
  intro s rest hf
  have hinput : step { s with port := .resetInput :: rest } = .next (applyReset { s with port := rest }) :=
    step_of_resetInput hf rfl
  have hcommand : step { s with port := .command 0x7000000000000000#64 :: rest } =
      .next (applyReset { s with port := rest }) :=
    step_of_command (s := { s with port := .command 0x7000000000000000#64 :: rest }) hf rfl decode_resetWord
  exact ⟨⟨_, hinput, applyReset_hasResetValues _, rfl, rfl, rfl, hf, rfl⟩, hcommand.trans hinput.symm⟩

/-- Settles O55: no frame is open or being received in `State.reset`, and its PBUF lists no address. -/
theorem resetStateMeetsTheInvariants : Obligations.ResetStateMeetsTheInvariants := by
  unfold Obligations.ResetStateMeetsTheInvariants
  have henc : EncoderInv State.reset := by decide
  have hrx : ParserInv State.reset :=
    ⟨State.reset_pbuf_wf, by simp [State.reset, Parser.atStart, Memory.within], by decide, by decide, by
      intro k hk
      exact absurd hk (Nat.not_lt_zero k)⟩
  exact ⟨⟨rfl, rfl, rfl, rfl, rfl⟩, ⟨henc, hrx⟩, rfl, rfl, rfl⟩

/-! ## Runs after a fault (R117) -/

theorem advance_of_fault {s : State} {r : Fault} (h : step s = .fault r) : advance s = { s with faulted := true } := by
  simp [advance, h]

theorem advance_of_faulted {s : State} (h : s.faulted = true) : advance s = s := by
  rw [advance_of_fault (step_of_faulted h), ← h]

theorem runSteps_of_faulted {s : State} (h : s.faulted = true) (k : Nat) : runSteps k s = s := by
  induction k with
  | zero => rfl
  | succ k ih => rw [runSteps, advance_of_faulted h, ih]

theorem runSteps_add (k m : Nat) (s : State) : runSteps (k + m) s = runSteps m (runSteps k s) := by
  induction k generalizing s with
  | zero => rw [Nat.zero_add, runSteps]
  | succ k ih => rw [Nat.succ_add, runSteps, ih, runSteps]

/-- A run that goes on past a faulting step ends with the mark set. -/
theorem runSteps_faulted_of_fault {s : State} {k n : Nat} {r : Fault} (hk : k < n)
    (h : step (runSteps k s) = .fault r) : (runSteps n s).faulted = true := by
  obtain ⟨m, rfl⟩ := Nat.exists_eq_add_of_lt hk
  have hmark : (advance (runSteps k s)).faulted = true := by rw [advance_of_fault h]
  rw [Nat.add_assoc, runSteps_add, runSteps, runSteps_of_faulted hmark]
  exact hmark

/-- Settles O11: a faulted state is a fixed point of `advance`, so the mark a faulting step sets is there at the end. -/
theorem faultsAreFinal : Obligations.FaultsAreFinal := by
  unfold Obligations.FaultsAreFinal
  refine ⟨fun s r h => advance_of_fault h, fun s hf => ⟨fun t h => ?_, runSteps_of_faulted hf⟩,
    fun inputs k r hk h => ?_⟩
  · rw [step_of_faulted hf] at h
    cases h
  · have hmark : (runFromReset inputs).faulted = true := runSteps_faulted_of_fault hk h
    simp [endsWell, hmark]

/-! ## The port run (R41) -/

/-- The state with other inputs still to come. -/
def withPort (p : List PortInput) (s : State) : State := { s with port := p }

/-- No command reads or writes the port: it does the same whatever the port holds. -/
theorem exec_withPort (i : Instr) (p : List PortInput) (s : State) :
    exec i (withPort p s) = mapNext (withPort p) (exec i s) := by
  obtain hi | hi | hi | rfl := Instr.unit_cases i
  · rw [exec_encoder_local hi, exec_encoder_local hi s, mapNext_mapNext]
    rfl
  · rw [exec_parser_local hi, exec_parser_local hi s, mapNext_mapNext]
    rfl
  · rw [exec_checksum_local hi, exec_checksum_local hi s, mapNext_mapNext]
    rfl
  · rfl

/-- No command sets or clears the mark of a faulted run. -/
theorem exec_keeps_faulted {i : Instr} {s t : State} (h : exec i s = .next t) : t.faulted = s.faulted := by
  obtain hi | hi | hi | rfl := Instr.unit_cases i
  · obtain ⟨r, -, rfl⟩ := exec_encoder_next hi h
    rfl
  · obtain ⟨r, -, rfl⟩ := exec_parser_next hi h
    rfl
  · obtain ⟨r, -, rfl⟩ := exec_checksum_next hi h
    rfl
  · cases h
    rfl

/-- One step over an encoded command does the command, and the rest of the port is still to come. -/
theorem step_withPort_encode {s : State} (hf : s.faulted = false) (i : Instr) (p : List PortInput) :
    step (withPort (.command (encode i) :: p) s) = mapNext (withPort p) (exec i s) :=
  (step_of_command (s := withPort (.command (encode i) :: p) s) hf rfl (decode_encode i)).trans (exec_withPort i p s)

/-- The host's run and the model's sequence of commands go on, or stop, as their first step and first command do. -/
theorem core_run_succ_eq_runInstrs_cons {i : Instr} {is : List Instr} {s u v : State} {f g : State → State}
    (k : Nat) (hstep : step s = mapNext f (exec i u)) (hexec : exec i v = mapNext g (exec i u))
    (hnext : ∀ t, exec i u = .next t → core.run k (f t) = runInstrs is (g t)) :
    core.run (k + 1) s = runInstrs (i :: is) v := by
  have hcore : core.step s = mapNext f (exec i u) := hstep
  simp only [Host.Core.run, runInstrs, hcore, hexec]
  cases ho : exec i u with
  | next t => exact hnext t ho
  | fault r => rfl
  | refused r => rfl

theorem core_run_encoded (cmds : List Instr) (rest : List PortInput) {s : State} (hf : s.faulted = false) :
    Host.Core.run Sys2Proof.core cmds.length
        (withPort ((cmds.map fun i => PortInput.command (encode i)) ++ rest) s) =
      runInstrs cmds (withPort rest s) := by
  induction cmds generalizing s with
  | nil => rfl
  | cons i is ih =>
    refine core_run_succ_eq_runInstrs_cons is.length (step_withPort_encode hf i _) (exec_withPort i rest s) ?_
    intro t ht
    exact ih ((exec_keeps_faulted ht).trans hf)

/-- Settles O12, by induction on the commands: one step of the machine over an encoded command is that command. -/
theorem portRunIsCommandRun : Obligations.PortRunIsCommandRun := by
  unfold Obligations.PortRunIsCommandRun
  intro s cmds rest hf
  exact core_run_encoded cmds rest hf

end Sys2Proof.Machine
end

section
/-! Both invariants through every command (R30, R31): an encoder command keeps EncoderInv and touches no parser
register, PARSE_BYTE the other way round, and every value of `p_state` keeps ParserInv. -/

namespace Sys2Proof.Machine

open Sys2Proof Sys2Proof.Safety

/-! ## What a command leaves alone (R11) -/

theorem exec_keeps_enc {i : Instr} {s t : State} (hi : i.isEncoder = false) (hr : i ≠ .reset)
    (h : exec i s = .next t) : t.enc = s.enc := by
  obtain hu | hu | hu | hu := Instr.unit_cases i
  · simp [hi] at hu
  · obtain ⟨r, -, rfl⟩ := exec_parser_next hu h
    rfl
  · obtain ⟨r, -, rfl⟩ := exec_checksum_next hu h
    rfl
  · exact absurd hu hr

theorem exec_keeps_rx {i : Instr} {s t : State} (hi : i.isParser = false) (hr : i ≠ .reset)
    (h : exec i s = .next t) : t.rx = s.rx := by
  obtain hu | hu | hu | hu := Instr.unit_cases i
  · obtain ⟨r, -, rfl⟩ := exec_encoder_next hu h
    rfl
  · simp [hi] at hu
  · obtain ⟨r, -, rfl⟩ := exec_checksum_next hu h
    rfl
  · exact absurd hu hr

/-- A command of another unit sends nothing (R11). -/
theorem exec_keeps_tx {i : Instr} {s t : State} (hi : i.isEncoder = false) (h : exec i s = .next t) : t.tx = s.tx := by
  obtain hu | hu | hu | rfl := Instr.unit_cases i
  · simp [hi] at hu
  · obtain ⟨r, -, rfl⟩ := exec_parser_next hu h
    rfl
  · obtain ⟨r, -, rfl⟩ := exec_checksum_next hu h
    rfl
  · cases h
    rfl

/-! ## The encoder's registers after each operation -/

@[simp] theorem emitEmptyFrame_eState (cls id : Byte) (s : State) : (emitEmptyFrame cls id s).enc.eState = .idle := rfl
@[simp] theorem openFrame_enc (cls id : Byte) (n : Half) (s : State) :
    (openFrame cls id n s).enc = { eState := .payload, eRemaining := n, eck := headerSum cls id n } := rfl
@[simp] theorem emitPayloadByte_enc (b : Byte) (s : State) : (emitPayloadByte b s).enc =
    { s.enc with eRemaining := s.enc.eRemaining - 1#16, eck := s.enc.eck.update b } := rfl
@[simp] theorem closeFrame_eState (s : State) : (closeFrame s).enc.eState = .idle := rfl

/-! ## The encoder's invariant (R30) -/

/-- A register that is not zero holds at least one. -/
theorem one_le_toNat {n : Half} (h : n ≠ 0#16) : 1 ≤ n.toNat := by
  have hne : n.toNat ≠ 0 := fun h0 => h (BitVec.eq_of_toNat_eq (by simpa using h0))
  omega

theorem encoderInv_of_idle {t : State} (h : t.enc.eState = .idle) : EncoderInv t := by
  simp [EncoderInv, h]

theorem encoderInv_of_remaining {t : State} (h : t.enc.eRemaining ≠ 0#16) : EncoderInv t :=
  fun _ => one_le_toNat h

theorem exec_keeps_EncoderInv {i : Instr} {s t : State} (hinv : EncoderInv s) (h : exec i s = .next t) :
    EncoderInv t := by
  cases i with
  | encBegin cls id len =>
    obtain ⟨-, ⟨-, rfl⟩ | ⟨-, -, rfl⟩ | ⟨-, hn, rfl⟩⟩ := execEncBegin_next h
    · exact hinv
    · exact encoderInv_of_idle rfl
    · exact encoderInv_of_remaining hn
  | encData b =>
    obtain ⟨-, ⟨-, rfl⟩ | ⟨hmore, rfl⟩⟩ := execEncData_next h
    · exact encoderInv_of_idle rfl
    · exact encoderInv_of_remaining hmore
  | encPoll cls id =>
    obtain ⟨-, rfl⟩ := execEncPoll_next h
    exact encoderInv_of_idle rfl
  | parseByte b => simpa only [EncoderInv, exec_keeps_enc rfl (by simp) h] using hinv
  | ckClear => cases h; exact hinv
  | ckUpdate b => cases h; exact hinv
  | reset => cases h; exact encoderInv_of_idle rfl

/-! ## The parser's invariant (R31) -/

/-- The invariant speaks of the parser and MAX_PAYLOAD only. -/
theorem parserInv_congr {s t : State} (hrx : t.rx = s.rx) (hcap : t.maxPayload = s.maxPayload) (h : ParserInv s) :
    ParserInv t := by
  simpa only [ParserInv, inBody, storedCount, hrx, hcap] using h

/-- The states outside a frame's body: nothing is stored, no length is held to the limit. -/
theorem storedCount_eq_zero {s : State} (h : inBody s = false) : storedCount s = 0 := by
  cases hst : s.rx.pState <;> simp [storedCount, inBody, hst] at h ⊢

/-- A state outside the body meets the invariant as soon as its PBUF is that of a state that does. -/
theorem parserInv_of_not_inBody {s t : State} (hinv : ParserInv s) (hbuf : t.rx.pbuf = s.rx.pbuf)
    (hcap : t.maxPayload = s.maxPayload) (hout : inBody t = false) : ParserInv t := by
  obtain ⟨hwf, hin, -, -, -⟩ := hinv
  refine ⟨by rwa [hbuf], by rwa [hbuf, hcap], fun hst => ?_, fun hb => ?_, fun k hk => ?_⟩
  · simp [inBody, hst] at hout
  · simp [hout] at hb
  · simp [storedCount_eq_zero hout] at hk

/-- A write fills its address and keeps every filled one filled. -/
theorem Memory.isSome_read_write (m : Memory) (a k : Nat) (v : Byte) :
    ((m.write a v).read k).isSome = true ↔ k = a ∨ (m.read k).isSome = true := by
  by_cases hk : k = a
  · subst hk; simp
  · simp [Memory.read_write_ne m v hk, hk]

theorem parseSeekSync1_keeps_ParserInv {b : Byte} {s : State} (hinv : ParserInv s) :
    ParserInv (parseSeekSync1 b s) := by
  unfold parseSeekSync1
  split
  · exact parserInv_of_not_inBody hinv rfl rfl rfl
  · exact hinv

theorem parseSeekSync2_keeps_ParserInv {b : Byte} {s : State} (hinv : ParserInv s) :
    ParserInv (parseSeekSync2 b s) := by
  unfold parseSeekSync2
  split
  · exact parserInv_of_not_inBody hinv rfl rfl rfl
  · split
    · exact parserInv_of_not_inBody hinv rfl rfl rfl
    · exact parserInv_of_not_inBody hinv rfl rfl rfl

/-- A length within MAX_PAYLOAD enters the body with no byte stored and all of them owed (R90). -/
theorem parseReadLenHi_keeps_ParserInv {b : Byte} {s : State} (hinv : ParserInv s) :
    ParserInv (parseReadLenHi b s) := by
  unfold parseReadLenHi
  simp only
  split
  · exact parserInv_of_not_inBody hinv rfl rfl rfl
  · next hfit =>
    obtain ⟨hwf, hin, -, -, -⟩ := hinv
    split
    · next hzero =>
      refine ⟨hwf, hin, by simp, fun _ => by simpa using hfit, fun k hk => ?_⟩
      simp [storedCount, hzero] at hk
    · next hzero =>
      refine ⟨hwf, hin, fun _ => ⟨one_le_toNat hzero, le_rfl⟩, fun _ => by simpa using hfit, fun k hk => ?_⟩
      simp [storedCount] at hk

@[simp] theorem storePayloadByte_pState (b : Byte) (s : State) : (storePayloadByte b s).rx.pState =
    if s.rx.pRemaining - 1#16 = 0#16 then .readCkA else .readPayload := rfl
@[simp] theorem storePayloadByte_pLen (b : Byte) (s : State) : (storePayloadByte b s).rx.pLen = s.rx.pLen := rfl
@[simp] theorem storePayloadByte_pRemaining (b : Byte) (s : State) :
    (storePayloadByte b s).rx.pRemaining = s.rx.pRemaining - 1#16 := rfl
@[simp] theorem storePayloadByte_pbuf (b : Byte) (s : State) :
    (storePayloadByte b s).rx.pbuf = s.rx.pbuf.write (payloadIndex s) b := rfl

/-- A payload byte stored is one more of the frame's bytes in PBUF, the last one too (R91). -/
theorem storedCount_storePayloadByte {s : State} (b : Byte) (hone : 1 ≤ s.rx.pRemaining.toNat)
    (hle : s.rx.pRemaining.toNat ≤ s.rx.pLen.toNat) : storedCount (storePayloadByte b s) = payloadIndex s + 1 := by
  have hcount := countDown_toNat hone
  have hlast := countDown_eq_zero hone
  rw [payloadIndex_eq hle]
  by_cases hr : s.rx.pRemaining - 1#16 = 0#16
  · have hrem : s.rx.pRemaining.toNat = 1 := hlast.1 hr
    simp only [storedCount, storePayloadByte_pState, if_pos hr, storePayloadByte_pLen]
    omega
  · simp only [storedCount, storePayloadByte_pState, if_neg hr, storePayloadByte_pLen, storePayloadByte_pRemaining,
      hcount]
    omega

/-- In ReadPayload the byte goes to the address after those stored already, and one fewer is owed (R91). -/
theorem storePayloadByte_keeps_ParserInv {b : Byte} {s : State} (hst : s.rx.pState = .readPayload)
    (hx : payloadIndex s < s.maxPayload.val) (hinv : ParserInv s) : ParserInv (storePayloadByte b s) := by
  obtain ⟨hwf, hin, hrem, hfit, hstored⟩ := hinv
  obtain ⟨hone, hle⟩ := hrem hst
  have hcount := countDown_toNat hone
  refine ⟨Memory.write_wf _ _ hwf, Memory.write_within _ hx hin, fun hst' => ?_,
    fun _ => hfit (by simp [inBody, hst]), fun k hk => ?_⟩
  · have hmore : s.rx.pRemaining - 1#16 ≠ 0#16 := by simpa using hst'
    refine ⟨one_le_toNat hmore, ?_⟩
    simp only [storePayloadByte_pRemaining, storePayloadByte_pLen, hcount]
    omega
  · rw [storedCount_storePayloadByte b hone hle] at hk
    rw [storePayloadByte_pbuf, Memory.isSome_read_write]
    rcases Nat.lt_succ_iff_lt_or_eq.1 hk with hlt | heq
    · refine .inr (hstored k ?_)
      simpa only [storedCount, hst, ← payloadIndex_eq hle] using hlt
    · exact .inl heq

theorem parseReadCkA_keeps_ParserInv {b : Byte} {s : State} (hst : s.rx.pState = .readCkA) (hinv : ParserInv s) :
    ParserInv (parseReadCkA b s) := by
  obtain ⟨hwf, hin, -, hfit, hstored⟩ := hinv
  refine ⟨hwf, hin, by simp [parseReadCkA], fun _ => hfit (by simp [inBody, hst]), fun k hk => hstored k ?_⟩
  simpa [storedCount, parseReadCkA, hst] using hk

theorem parseReadCkB_keeps_ParserInv {b : Byte} {s t : State} (hinv : ParserInv s) (h : parseReadCkB b s = .next t) :
    ParserInv t := by
  obtain ⟨-, -, -, rfl⟩ | ⟨-, rfl⟩ := parseReadCkB_next h
  · exact parserInv_of_not_inBody hinv rfl rfl rfl
  · exact parserInv_of_not_inBody hinv rfl rfl rfl

theorem execParseByte_keeps_ParserInv {b : Byte} {s t : State} (hinv : ParserInv s) (h : execParseByte b s = .next t) :
    ParserInv t := by
  obtain ⟨-, rfl⟩ | ⟨-, rfl⟩ | ⟨-, rfl⟩ | ⟨-, rfl⟩ | ⟨-, rfl⟩ | ⟨-, rfl⟩ | ⟨hst, hx, rfl⟩ | ⟨hst, rfl⟩ | ⟨-, hckB⟩ :=
    execParseByte_next h
  · exact parseSeekSync1_keeps_ParserInv hinv
  · exact parseSeekSync2_keeps_ParserInv hinv
  · exact parserInv_of_not_inBody hinv rfl rfl rfl
  · exact parserInv_of_not_inBody hinv rfl rfl rfl
  · exact parserInv_of_not_inBody hinv rfl rfl rfl
  · exact parseReadLenHi_keeps_ParserInv hinv
  · exact storePayloadByte_keeps_ParserInv hst hx hinv
  · exact parseReadCkA_keeps_ParserInv hst hinv
  · exact parseReadCkB_keeps_ParserInv hinv hckB

theorem applyReset_ParserInv (s : State) : ParserInv (applyReset s) := by
  have hout : inBody (applyReset s) = false := rfl
  refine ⟨applyReset_pbuf_wf s, by simp [Parser.afterReset, Memory.within], by simp [Parser.afterReset],
    by simp [hout], ?_⟩
  simp [storedCount_eq_zero hout]

theorem exec_keeps_ParserInv {i : Instr} {s t : State} (hinv : ParserInv s) (h : exec i s = .next t) :
    ParserInv t := by
  have hcap : t.maxPayload = s.maxPayload := exec_keeps_maxPayload h
  cases i with
  | encBegin cls id len => exact parserInv_congr (exec_keeps_rx rfl (by simp) h) hcap hinv
  | encData b => exact parserInv_congr (exec_keeps_rx rfl (by simp) h) hcap hinv
  | encPoll cls id => exact parserInv_congr (exec_keeps_rx rfl (by simp) h) hcap hinv
  | parseByte b => exact execParseByte_keeps_ParserInv hinv h
  | ckClear => exact parserInv_congr (exec_keeps_rx rfl (by simp) h) hcap hinv
  | ckUpdate b => exact parserInv_congr (exec_keeps_rx rfl (by simp) h) hcap hinv
  | reset => cases h; exact applyReset_ParserInv s

theorem exec_keeps_Inv {i : Instr} {s t : State} (hinv : Inv s) (h : exec i s = .next t) : Inv t :=
  hinv.imp (exec_keeps_EncoderInv · h) (exec_keeps_ParserInv · h)

/-- Settles O54: an idle step and the reset input keep both invariants, and a step that runs a command does because the
command does. -/
theorem everyStepKeepsTheInvariants : Obligations.EveryStepKeepsTheInvariants := by
  unfold Obligations.EveryStepKeepsTheInvariants
  intro s t hinv h
  obtain ⟨-, ⟨-, rfl⟩ | ⟨rest, -, rfl⟩ | ⟨w, rest, i, -, -, hexec⟩⟩ := step_next h
  · exact hinv
  · exact exec_keeps_Inv (i := .reset) (s := { s with port := rest }) hinv rfl
  · exact exec_keeps_Inv (s := { s with port := rest }) hinv hexec

end Sys2Proof.Machine
end

section
/-! The encoder over commands (R30, R81): when `enc_busy` rises and falls, and that what the encoder has sent is always
whole frames, then the part of one frame that an open encoder has sent of it. -/

namespace Sys2Proof.Machine

open Sys2Proof Sys2Proof.Safety

/-! ## `enc_busy` as the encoder's state (R81) -/

theorem encBusy_eq_true (s : State) : encBusy s = true ↔ s.enc.eState = .payload := by
  simp [encBusy]

theorem encBusy_eq_false (s : State) : encBusy s = false ↔ s.enc.eState = .idle := by
  cases hst : s.enc.eState <;> simp [encBusy, hst]

theorem encBusy_congr {s t : State} (h : t.enc = s.enc) : encBusy t = encBusy s := by
  simp only [encBusy, h]

/-- A request that is not too long is for no bytes exactly when the length field is zero. -/
theorem reqLen_eq_zero {len : LenReq} (h : ¬ reqTooLong len) : reqLen len = 0#16 ↔ len.toNat = 0 := by
  rw [← BitVec.toNat_inj, reqLen_toNat h, BitVec.toNat_ofNat]

/-! ## A command given as `enc_busy` allows answers a next state -/

theorem execEncBegin_of_idle {s : State} (cls id : Byte) (len : LenReq) (h : s.enc.eState = .idle) :
    ∃ t, execEncBegin cls id len s = .next t := by
  simp only [execEncBegin, h]
  split
  · exact ⟨_, rfl⟩
  · split <;> exact ⟨_, rfl⟩

theorem execEncPoll_of_idle {s : State} (cls id : Byte) (h : s.enc.eState = .idle) :
    execEncPoll cls id s = .next (emitEmptyFrame cls id s) := by
  simp only [execEncPoll, h]

theorem execEncData_of_payload {s : State} (b : Byte) (h : s.enc.eState = .payload) :
    ∃ t, execEncData b s = .next t := by
  simp only [execEncData, h]
  split <;> exact ⟨_, rfl⟩

/-! ## When `enc_busy` rises and falls -/

/-- ENC_BEGIN opens a frame exactly for a request of 1 to 65535 bytes. -/
theorem encBusy_after_encBegin {cls id : Byte} {len : LenReq} {s t : State} (h : execEncBegin cls id len s = .next t) :
    encBusy t = true ↔ 1 ≤ len.toNat ∧ len.toNat ≤ 65535 := by
  rw [encBusy_eq_true]
  obtain ⟨hidle, ⟨hlong, rfl⟩ | ⟨hshort, hzero, rfl⟩ | ⟨hshort, hzero, rfl⟩⟩ := execEncBegin_next h
  · simp only [reqTooLong, Config.maxFrameLen] at hlong
    simp [hidle]
    omega
  · rw [reqLen_eq_zero hshort] at hzero
    simp [hzero]
  · rw [Ne, reqLen_eq_zero hshort] at hzero
    simp only [reqTooLong, Config.maxFrameLen] at hshort
    simp
    omega

/-- ENC_DATA closes the frame exactly when it sends the last payload byte owed. -/
theorem encBusy_after_encData {b : Byte} {s t : State} (hinv : EncoderInv s) (h : execEncData b s = .next t) :
    encBusy t = false ↔ s.enc.eRemaining = 1#16 := by
  rw [encBusy_eq_false]
  obtain ⟨hopen, hcase⟩ := execEncData_next h
  have hlast : s.enc.eRemaining - 1#16 = 0#16 ↔ s.enc.eRemaining = 1#16 := by
    rw [countDown_eq_zero (hinv hopen), ← BitVec.toNat_inj]
    rfl
  rcases hcase with ⟨hzero, rfl⟩ | ⟨hmore, rfl⟩
  · simp [hlast.1 hzero]
  · simp [hopen, hlast.not.1 hmore]

theorem encBusy_rises {i : Instr} {s t : State} (h : exec i s = .next t) (hidle : encBusy s = false) :
    encBusy t = true ↔ ∃ cls id len, i = .encBegin cls id len ∧ 1 ≤ len.toNat ∧ len.toNat ≤ 65535 := by
  cases i with
  | encBegin cls id len => rw [encBusy_after_encBegin h]; simp
  | encData b => simp [(encBusy_eq_true s).2 (execEncData_next h).1] at hidle
  | encPoll cls id =>
    obtain ⟨-, rfl⟩ := execEncPoll_next h
    simp [encBusy_eq_true]
  | parseByte b => simp [encBusy_congr (exec_keeps_enc rfl (by simp) h), hidle]
  | ckClear => simp [encBusy_congr (exec_keeps_enc rfl (by simp) h), hidle]
  | ckUpdate b => simp [encBusy_congr (exec_keeps_enc rfl (by simp) h), hidle]
  | reset => cases h; simp [encBusy_eq_true, Encoder.afterReset]

theorem encBusy_falls {i : Instr} {s t : State} (hinv : EncoderInv s) (h : exec i s = .next t)
    (hbusy : encBusy s = true) :
    encBusy t = false ↔ i = .reset ∨ (s.enc.eRemaining = 1#16 ∧ ∃ b, i = .encData b) := by
  cases i with
  | encBegin cls id len => simp [(encBusy_eq_false s).2 (execEncBegin_next h).1] at hbusy
  | encData b => rw [encBusy_after_encData hinv h]; simp
  | encPoll cls id => simp [(encBusy_eq_false s).2 (execEncPoll_next h).1] at hbusy
  | parseByte b => simp [encBusy_congr (exec_keeps_enc rfl (by simp) h), hbusy]
  | ckClear => simp [encBusy_congr (exec_keeps_enc rfl (by simp) h), hbusy]
  | ckUpdate b => simp [encBusy_congr (exec_keeps_enc rfl (by simp) h), hbusy]
  | reset => cases h; simp [encBusy_eq_false, Encoder.afterReset]

/-- Settles O24, command by command: only ENC_BEGIN opens a frame, and only ENC_DATA and RESET close one. -/
theorem encBusyTellsWhetherAFrameIsOpen : Obligations.EncBusyTellsWhetherAFrameIsOpen := by
  unfold Obligations.EncBusyTellsWhetherAFrameIsOpen
  refine ⟨encBusy_eq_true, fun i s t h hidle => encBusy_rises h hidle,
    fun i s t hinv h hbusy => encBusy_falls hinv h hbusy, fun s cls id len hidle => ?_, fun s b hbusy => ?_⟩
  · have hst := (encBusy_eq_false s).1 hidle
    exact ⟨execEncBegin_of_idle cls id len hst, _, execEncPoll_of_idle cls id hst⟩
  · exact execEncData_of_payload b ((encBusy_eq_true s).1 hbusy)

/-! ## A frame's bytes are a valid frame (R44, R49) -/

theorem declaredLen_frame (cls id : Byte) (n : Half) (rest : List Byte) :
    declaredLen (frameHeader cls id n ++ rest) = n := by
  simp [declaredLen, frameHeader]

theorem validFrame_frameBytes (cls id : Byte) {p : List Byte} (hp : p.length ≤ 65535) :
    validFrame (frameBytes cls id p) = true := by
  have hn : (BitVec.ofNat 16 p.length).toNat = p.length := by
    rw [BitVec.toNat_ofNat]
    omega
  have hlen := frameBytes_length cls id p
  have hdecl : declaredLen (frameBytes cls id p) = BitVec.ofNat 16 p.length := by
    rw [frameBytes, List.append_assoc, declaredLen_frame]
  have hck : (frameBytes cls id p).drop (6 + p.length) =
      ckBytes (frameChecksum cls id (BitVec.ofNat 16 p.length) p) := by
    rw [frameBytes]
    exact List.drop_left' (by simp)
  have hsummed : ((frameBytes cls id p).drop 2).take (4 + p.length) =
      summedHeader cls id (BitVec.ofNat 16 p.length) ++ p := by
    have hdrop : (frameBytes cls id p).drop 2 = (summedHeader cls id (BitVec.ofNat 16 p.length) ++ p) ++
        ckBytes (frameChecksum cls id (BitVec.ofNat 16 p.length) p) := rfl
    rw [hdrop]
    exact List.take_left' (by simp [summedHeader]; omega)
  have hsync1 : (frameBytes cls id p)[0]? = some Config.sync1 := rfl
  have hsync2 : (frameBytes cls id p)[1]? = some Config.sync2 := rfl
  simp only [validFrame, hdecl, hn, hlen, hck, hsummed, hsync1, hsync2]
  simp [frameChecksum]

/-! ## What the encoder has sent (R30) -/

/-- `bs` is whole valid frames, one after another. -/
def WholeFrames (bs : List Byte) : Prop :=
  ∃ frames : List (List Byte), (∀ f ∈ frames, validFrame f = true) ∧ bs = frames.flatten

theorem WholeFrames.nil : WholeFrames [] := ⟨[], by simp, rfl⟩

theorem WholeFrames.append_frame {bs : List Byte} (h : WholeFrames bs) (cls id : Byte) {p : List Byte}
    (hp : p.length ≤ 65535) : WholeFrames (bs ++ frameBytes cls id p) := by
  obtain ⟨frames, hvalid, rfl⟩ := h
  refine ⟨frames ++ [frameBytes cls id p], fun f hf => ?_, by simp⟩
  rcases List.mem_append.1 hf with hf | hf
  · exact hvalid f hf
  · rw [List.mem_singleton.1 hf]
    exact validFrame_frameBytes cls id hp

/-- `bs` is whole frames, then the header and the payload bytes `p` of a frame of which `rem` payload bytes are still to
come and `x` is the checksum so far. -/
def OpenFrame (bs : List Byte) (rem : Half) (x : Acc) : Prop :=
  ∃ sent cls id n p, WholeFrames sent ∧ bs = sent ++ frameHeader cls id n ++ p ∧
    n.toNat = p.length + rem.toNat ∧ 1 ≤ rem.toNat ∧ x = (headerSum cls id n).updateAll p

/-- The bytes the encoder has sent since `base`, as its state tells them (R30). -/
def SentFrom (base : List Byte) (s : State) : Prop :=
  ∃ bs, s.tx = base ++ bs ∧
    (s.enc.eState = .idle → WholeFrames bs) ∧
    (s.enc.eState = .payload → OpenFrame bs s.enc.eRemaining s.enc.eck)

theorem headerSum_updateAll (cls id : Byte) (n : Half) (p : List Byte) :
    (headerSum cls id n).updateAll p = frameChecksum cls id n p := by
  simp [headerSum, frameChecksum, checksum]

/-- A frame with no payload, as ENC_BEGIN and ENC_POLL send it, is the frame of the empty payload (R78, R80). -/
theorem frameBytes_nil (cls id : Byte) :
    frameBytes cls id [] = frameHeader cls id 0#16 ++ ckBytes (headerSum cls id 0#16) := by
  simp [frameBytes, frameChecksum, checksum, headerSum]

theorem OpenFrame.of_header {bs : List Byte} (h : WholeFrames bs) (cls id : Byte) {n : Half} (hn : n ≠ 0#16) :
    OpenFrame (bs ++ frameHeader cls id n) n (headerSum cls id n) :=
  ⟨bs, cls, id, n, [], h, by simp, by simp, one_le_toNat hn, rfl⟩

/-- A payload byte that is not the last leaves the frame open (R77). -/
theorem OpenFrame.push {bs : List Byte} {rem : Half} {x : Acc} (h : OpenFrame bs rem x) (b : Byte)
    (hmore : rem - 1#16 ≠ 0#16) : OpenFrame (bs ++ [b]) (rem - 1#16) (x.update b) := by
  obtain ⟨sent, cls, id, n, p, hsent, rfl, hn, hone, rfl⟩ := h
  refine ⟨sent, cls, id, n, p ++ [b], hsent, by simp, ?_, one_le_toNat hmore, by simp⟩
  rw [countDown_toNat hone, List.length_append, List.length_singleton]
  omega

/-- The last payload byte and the checksum complete the frame (R77). -/
theorem OpenFrame.close {bs : List Byte} {rem : Half} {x : Acc} (h : OpenFrame bs rem x) (b : Byte)
    (hlast : rem - 1#16 = 0#16) : WholeFrames (bs ++ [b] ++ ckBytes (x.update b)) := by
  obtain ⟨sent, cls, id, n, p, hsent, rfl, hn, hone, rfl⟩ := h
  have hlen : n.toNat = (p ++ [b]).length := by
    have hrem := (countDown_eq_zero hone).1 hlast
    rw [List.length_append, List.length_singleton]
    omega
  have hframe : frameBytes cls id (p ++ [b]) =
      frameHeader cls id n ++ p ++ [b] ++ ckBytes (((headerSum cls id n).updateAll p).update b) := by
    have hsum := headerSum_updateAll cls id n (p ++ [b])
    simp only [Acc.updateAll_append, Acc.updateAll_cons, Acc.updateAll_nil] at hsum
    simp [frameBytes, ← hlen, ← hsum]
  have hwhole := hsent.append_frame cls id (p := p ++ [b]) (by have := n.isLt; omega)
  simpa [hframe] using hwhole

theorem SentFrom.congr {base : List Byte} {s t : State} (h : SentFrom base s) (henc : t.enc = s.enc)
    (htx : t.tx = s.tx) : SentFrom base t := by
  simpa only [SentFrom, henc, htx] using h

/-- What is known of the bytes sent since `base` once the state is Idle again. -/
theorem SentFrom.of_idle {base bs : List Byte} {t : State} (htx : t.tx = base ++ bs) (hst : t.enc.eState = .idle)
    (hbs : WholeFrames bs) : SentFrom base t :=
  ⟨bs, htx, fun _ => hbs, fun hopen => by simp [hst] at hopen⟩

/-- What is known of the bytes sent since `base` while a frame is open. -/
theorem SentFrom.of_payload {base bs : List Byte} {t : State} (htx : t.tx = base ++ bs)
    (hst : t.enc.eState = .payload) (hbs : OpenFrame bs t.enc.eRemaining t.enc.eck) : SentFrom base t :=
  ⟨bs, htx, fun hidle => by simp [hst] at hidle, fun _ => hbs⟩

theorem SentFrom.emptyFrame_sent {base : List Byte} {s : State} (h : SentFrom base s) (hst : s.enc.eState = .idle)
    (cls id : Byte) : SentFrom base (emitEmptyFrame cls id s) := by
  obtain ⟨bs, htx, hidle, -⟩ := h
  have hwhole := (hidle hst).append_frame cls id (p := []) (by simp)
  refine .of_idle ?_ rfl hwhole
  simp [emitEmptyFrame, htx, frameBytes_nil]

theorem SentFrom.header_sent {base : List Byte} {s : State} (h : SentFrom base s) (hst : s.enc.eState = .idle)
    (cls id : Byte) {n : Half} (hn : n ≠ 0#16) : SentFrom base (openFrame cls id n s) := by
  obtain ⟨bs, htx, hidle, -⟩ := h
  refine .of_payload ?_ rfl (OpenFrame.of_header (hidle hst) cls id hn)
  simp [openFrame, htx]

theorem SentFrom.payloadByte_sent {base : List Byte} {s : State} (h : SentFrom base s)
    (hst : s.enc.eState = .payload) (b : Byte) (hmore : s.enc.eRemaining - 1#16 ≠ 0#16) :
    SentFrom base (emitPayloadByte b s) := by
  obtain ⟨bs, htx, -, hopen⟩ := h
  refine .of_payload ?_ hst ((hopen hst).push b hmore)
  simp [emitPayloadByte, htx]

theorem SentFrom.frame_closed {base : List Byte} {s : State} (h : SentFrom base s) (hst : s.enc.eState = .payload)
    (b : Byte) (hlast : s.enc.eRemaining - 1#16 = 0#16) : SentFrom base (closeFrame (emitPayloadByte b s)) := by
  obtain ⟨bs, htx, -, hopen⟩ := h
  refine .of_idle ?_ rfl ((hopen hst).close b hlast)
  simp [closeFrame, emitPayloadByte, htx]

theorem exec_keeps_SentFrom {base : List Byte} {i : Instr} {s t : State} (hsent : SentFrom base s) (hr : i ≠ .reset)
    (h : exec i s = .next t) : SentFrom base t := by
  cases i with
  | encBegin cls id len =>
    obtain ⟨hst, ⟨-, rfl⟩ | ⟨-, -, rfl⟩ | ⟨-, hn, rfl⟩⟩ := execEncBegin_next h
    · exact hsent
    · exact hsent.emptyFrame_sent hst cls id
    · exact hsent.header_sent hst cls id hn
  | encData b =>
    obtain ⟨hst, ⟨hlast, rfl⟩ | ⟨hmore, rfl⟩⟩ := execEncData_next h
    · exact hsent.frame_closed hst b hlast
    · exact hsent.payloadByte_sent hst b hmore
  | encPoll cls id =>
    obtain ⟨hst, rfl⟩ := execEncPoll_next h
    exact hsent.emptyFrame_sent hst cls id
  | parseByte b => exact hsent.congr (exec_keeps_enc rfl hr h) (exec_keeps_tx rfl h)
  | ckClear => exact hsent.congr (exec_keeps_enc rfl hr h) (exec_keeps_tx rfl h)
  | ckUpdate b => exact hsent.congr (exec_keeps_enc rfl hr h) (exec_keeps_tx rfl h)
  | reset => exact absurd rfl hr

theorem runInstrs_keeps_SentFrom {base : List Byte} {cmds : List Instr} {s t : State} (hsent : SentFrom base s)
    (hr : ∀ x ∈ cmds, x ≠ .reset) (h : runInstrs cmds s = .next t) : SentFrom base t := by
  induction cmds generalizing s with
  | nil => cases h; exact hsent
  | cons i is ih =>
    obtain ⟨u, hexec, hrest⟩ := runInstrs_cons_inv h
    have hi := hr i List.mem_cons_self
    exact ih (exec_keeps_SentFrom hsent hi hexec) (fun x hx => hr x (List.mem_cons_of_mem _ hx)) hrest

/-- Settles O56: from Idle on, what is sent is whole frames and at most one open one, and at Idle none is open. -/
theorem idleEncoderHasSentWholeFrames : Obligations.IdleEncoderHasSentWholeFrames := by
  unfold Obligations.IdleEncoderHasSentWholeFrames
  intro s t cmds hs hr h ht
  have hstart : SentFrom s.tx s := ⟨[], by simp, fun _ => WholeFrames.nil, fun hst => by simp [hs] at hst⟩
  obtain ⟨bs, htx, hidle, -⟩ := runInstrs_keeps_SentFrom hstart hr h
  obtain ⟨frames, hvalid, rfl⟩ := hidle ht
  exact ⟨frames, hvalid, htx⟩

end Sys2Proof.Machine
end

section
/-! What reset leaves unspecified shows nowhere (R29, R31): two machines stay alike in what the parser has written since
its sync pair, which is all it reads, so every command ends alike in both and shows the same. -/

namespace Sys2Proof.Machine

open Sys2Proof Sys2Proof.Safety

/-! ## Two parsers alike in what they have written -/

/-- Both buffers hold the same written bytes at the addresses below `n`. -/
def FilledAlike (n : Nat) (m m' : Memory) : Prop := ∀ k < n, ∃ v, m.read k = some v ∧ m'.read k = some v

theorem FilledAlike.zero (m m' : Memory) : FilledAlike 0 m m' := fun k hk => absurd hk (Nat.not_lt_zero k)

/-- The next address written with one byte in both, one more address is alike. -/
theorem FilledAlike.write {n : Nat} {m m' : Memory} (h : FilledAlike n m m') (v : Byte) :
    FilledAlike (n + 1) (m.write n v) (m'.write n v) := by
  intro k hk
  by_cases hkn : k = n
  · subst hkn
    exact ⟨v, Memory.read_write_same .., Memory.read_write_same ..⟩
  · rw [Memory.read_write_ne m v hkn, Memory.read_write_ne m' v hkn]
    exact h k (by omega)

/-- The same class, id and running checksum. -/
structure HeaderAlike (p q : Parser) : Prop where
  pClass : p.pClass = q.pClass
  pId : p.pId = q.pId
  pck : p.pck = q.pck

/-- The same header, the same accepted length, and the first `n` payload bytes stored in both. -/
structure BodyAlike (cap : Fin 65536) (n : Nat) (p q : Parser) : Prop where
  header : HeaderAlike p q
  pLen : p.pLen = q.pLen
  fits : p.pLen.toNat ≤ cap.val
  filled : FilledAlike n p.pbuf q.pbuf

/-- The registers that a parser in this state has written since the sync pair hold the same in both parsers, with the
counters in order (R31). -/
abbrev WrittenAlike (cap : Fin 65536) (p q : Parser) : ParserState → Prop
  | .seekSync1 => True
  | .seekSync2 => True
  | .readClass => p.pck = q.pck
  | .readId => p.pClass = q.pClass ∧ p.pck = q.pck
  | .readLenLo => HeaderAlike p q
  | .readLenHi => HeaderAlike p q ∧ lenLo p.pLen = lenLo q.pLen
  | .readPayload => BodyAlike cap (p.pLen.toNat - p.pRemaining.toNat) p q ∧ p.pRemaining = q.pRemaining ∧
      1 ≤ p.pRemaining.toNat ∧ p.pRemaining.toNat ≤ p.pLen.toNat
  | .readCkA => BodyAlike cap p.pLen.toNat p q
  | .readCkB => BodyAlike cap p.pLen.toNat p q ∧ p.pRxCka = q.pRxCka

/-- Two machines that no sequence of commands tells apart. -/
structure Alike (s t : State) : Prop where
  specified : AgreeOnSpecified s t
  written : WrittenAlike s.maxPayload s.rx t.rx s.rx.pState

/-- Two outcomes with the same reason to stop, or next states that are alike. -/
inductive OutcomesAlike : Host.Outcome State Fault Refusal → Host.Outcome State Fault Refusal → Prop
  | next {s t : State} (h : Alike s t) : OutcomesAlike (.next s) (.next t)
  | fault (r : Fault) : OutcomesAlike (.fault r) (.fault r)
  | refused (r : Refusal) : OutcomesAlike (.refused r) (.refused r)

theorem OutcomesAlike.mapNext {f g : State → State} (h : ∀ r, Alike (f r) (g r))
    (o : Host.Outcome State Fault Refusal) : OutcomesAlike (mapNext f o) (mapNext g o) := by
  cases o with
  | next r => exact .next (h r)
  | fault r => exact .fault r
  | refused r => exact .refused r

/-! ## Parser registers written in both -/

theorem Alike.maxPayload {s t : State} (h : Alike s t) : t.maxPayload = s.maxPayload := by
  obtain ⟨-, -, -, hcap, -⟩ := h.specified
  exact hcap.symm

theorem Alike.pState {s t : State} (h : Alike s t) : t.rx.pState = s.rx.pState := by
  obtain ⟨-, hst, -⟩ := h.specified
  exact hst.symm

/-- The registers an alike pair of machines has written, where the parser's state is known. -/
theorem Alike.written_at {s t : State} {v : ParserState} (h : Alike s t) (hst : s.rx.pState = v) :
    WrittenAlike s.maxPayload s.rx t.rx v := hst ▸ h.written

/-- New parser registers, alike in what state `v` has written, leave the machines alike. -/
theorem Alike.setRx {s t : State} {p q : Parser} (h : AgreeOnSpecified s t) (v : ParserState) (hp : p.pState = v)
    (hq : q.pState = v) (hw : WrittenAlike s.maxPayload p q v) : Alike { s with rx := p } { t with rx := q } := by
  obtain ⟨henc, -, hcku, hcap, hfaulted, hport, htx, hevents⟩ := h
  subst hp
  exact ⟨⟨henc, hq.symm, hcku, hcap, hfaulted, hport, htx, hevents⟩, hw⟩

theorem agreeOnSpecified_post {s t : State} (h : AgreeOnSpecified s t) (e : Event) :
    AgreeOnSpecified (post s e) (post t e) := by
  obtain ⟨henc, hst, hcku, hcap, hfaulted, hport, htx, hevents⟩ := h
  exact ⟨henc, hst, hcku, hcap, hfaulted, hport, htx, congrArg (· ++ [e]) hevents⟩

/-- A frame that ends, with the same event in both, leaves nothing that is read later. -/
theorem Alike.settle {s t : State} (h : Alike s t) (e : Event) :
    Alike (setPState (post s e) .seekSync1) (setPState (post t e) .seekSync1) :=
  .setRx (agreeOnSpecified_post h.specified e) .seekSync1 rfl rfl trivial

/-! ## PARSE_BYTE, state by state -/

theorem parseSeekSync1_alike {s t : State} (b : Byte) (h : Alike s t) :
    Alike (parseSeekSync1 b s) (parseSeekSync1 b t) := by
  unfold parseSeekSync1
  split
  · exact .setRx h.specified .seekSync2 rfl rfl trivial
  · exact h

theorem parseSeekSync2_alike {s t : State} (b : Byte) (h : Alike s t) :
    Alike (parseSeekSync2 b s) (parseSeekSync2 b t) := by
  unfold parseSeekSync2
  split
  · exact .setRx h.specified .readClass rfl rfl rfl
  · split
    · exact .setRx h.specified .seekSync2 rfl rfl trivial
    · exact .setRx h.specified .seekSync1 rfl rfl trivial

theorem parseReadClass_alike {s t : State} (b : Byte) (h : Alike s t) (hst : s.rx.pState = .readClass) :
    Alike (parseReadClass b s) (parseReadClass b t) := by
  have hpck : s.rx.pck = t.rx.pck := h.written_at hst
  exact .setRx h.specified .readId rfl rfl ⟨rfl, congrArg (Acc.update · b) hpck⟩

theorem parseReadId_alike {s t : State} (b : Byte) (h : Alike s t) (hst : s.rx.pState = .readId) :
    Alike (parseReadId b s) (parseReadId b t) := by
  obtain ⟨hclass, hpck⟩ := h.written_at hst
  exact .setRx h.specified .readLenLo rfl rfl ⟨hclass, rfl, congrArg (Acc.update · b) hpck⟩

theorem parseReadLenLo_alike {s t : State} (b : Byte) (h : Alike s t) (hst : s.rx.pState = .readLenLo) :
    Alike (parseReadLenLo b s) (parseReadLenLo b t) := by
  obtain ⟨hclass, hid, hpck⟩ := h.written_at hst
  refine .setRx h.specified .readLenHi rfl rfl ⟨⟨hclass, hid, congrArg (Acc.update · b) hpck⟩, ?_⟩
  exact (lenLo_setLenLo s.rx.pLen b).trans (lenLo_setLenLo t.rx.pLen b).symm

/-- A length above MAX_PAYLOAD ends the frame (R90). -/
theorem parseReadLenHi_tooLarge {b : Byte} {s : State} (h : s.maxPayload.val < (setLenHi s.rx.pLen b).toNat) :
    parseReadLenHi b s =
      setPState (postError (updatePck { s with rx := { s.rx with pLen := setLenHi s.rx.pLen b } } b) .frameTooLarge)
        .seekSync1 :=
  if_pos h

/-- A length of zero leaves the checksum to come (R90). -/
theorem parseReadLenHi_zero {b : Byte} {s : State} (h : setLenHi s.rx.pLen b = 0#16) :
    parseReadLenHi b s =
      { s with rx := { s.rx with pLen := setLenHi s.rx.pLen b, pck := s.rx.pck.update b, pState := .readCkA } } := by
  have hfit : ¬ s.maxPayload.val < (setLenHi s.rx.pLen b).toNat := by simp [h]
  exact (if_neg hfit).trans (if_pos h)

/-- Any other length leaves that many payload bytes to come (R90). -/
theorem parseReadLenHi_payload {b : Byte} {s : State} (hfit : ¬ s.maxPayload.val < (setLenHi s.rx.pLen b).toNat)
    (h : setLenHi s.rx.pLen b ≠ 0#16) :
    parseReadLenHi b s =
      { s with rx := { s.rx with pLen := setLenHi s.rx.pLen b, pck := s.rx.pck.update b,
                                 pRemaining := setLenHi s.rx.pLen b, pState := .readPayload } } :=
  (if_neg hfit).trans (if_neg h)

/-- Both machines read the same length: the low bytes they hold and the high byte they are given are the same. -/
theorem parseReadLenHi_alike {s t : State} (b : Byte) (h : Alike s t) (hst : s.rx.pState = .readLenHi) :
    Alike (parseReadLenHi b s) (parseReadLenHi b t) := by
  obtain ⟨⟨hclass, hid, hpck⟩, hlo⟩ := h.written_at hst
  have hn : setLenHi t.rx.pLen b = setLenHi s.rx.pLen b := by simp only [setLenHi, hlo]
  have hcap := h.maxPayload
  by_cases hlong : s.maxPayload.val < (setLenHi s.rx.pLen b).toNat
  · rw [parseReadLenHi_tooLarge hlong, parseReadLenHi_tooLarge (by rwa [hn, hcap])]
    exact .setRx (agreeOnSpecified_post h.specified _) .seekSync1 rfl rfl trivial
  by_cases hzero : setLenHi s.rx.pLen b = 0#16
  · rw [parseReadLenHi_zero hzero, parseReadLenHi_zero (hn.trans hzero)]
    refine .setRx h.specified .readCkA rfl rfl
      ⟨⟨hclass, hid, congrArg (Acc.update · b) hpck⟩, hn.symm, not_lt.1 hlong, ?_⟩
    simpa only [hzero, BitVec.toNat_zero] using FilledAlike.zero s.rx.pbuf t.rx.pbuf
  · rw [parseReadLenHi_payload hlong hzero, parseReadLenHi_payload (by rwa [hn, hcap]) (by rwa [hn])]
    refine .setRx h.specified .readPayload rfl rfl
      ⟨⟨⟨hclass, hid, congrArg (Acc.update · b) hpck⟩, hn.symm, not_lt.1 hlong, ?_⟩, hn.symm,
        one_le_toNat hzero, le_rfl⟩
    simpa only [Nat.sub_self] using FilledAlike.zero s.rx.pbuf t.rx.pbuf

/-- Both machines store the byte at the same address, next to the bytes alike. -/
theorem storePayloadByte_alike {s t : State} (b : Byte) (h : Alike s t) (hst : s.rx.pState = .readPayload) :
    Alike (storePayloadByte b s) (storePayloadByte b t) := by
  obtain ⟨⟨⟨hclass, hid, hpck⟩, hlen, hfits, hfilled⟩, hrem, hone, hle⟩ := h.written_at hst
  have hindex : payloadIndex t = payloadIndex s := by simp only [payloadIndex, hlen, hrem]
  have hstored : FilledAlike (payloadIndex s + 1) (storePayloadByte b s).rx.pbuf (storePayloadByte b t).rx.pbuf := by
    rw [storePayloadByte_pbuf, storePayloadByte_pbuf, hindex, payloadIndex_eq hle]
    exact hfilled.write b
  rw [payloadIndex_eq hle] at hstored
  have hheader : HeaderAlike (storePayloadByte b s).rx (storePayloadByte b t).rx :=
    ⟨hclass, hid, congrArg (Acc.update · b) hpck⟩
  by_cases hlast : s.rx.pRemaining - 1#16 = 0#16
  · have hall : s.rx.pLen.toNat - s.rx.pRemaining.toNat + 1 = s.rx.pLen.toNat := by
      have hrem1 := (countDown_eq_zero hone).1 hlast
      omega
    exact .setRx h.specified .readCkA (if_pos hlast) (if_pos (hrem ▸ hlast)) ⟨hheader, hlen, hfits, hall ▸ hstored⟩
  · have hcount := countDown_toNat hone
    have hnext : s.rx.pLen.toNat - s.rx.pRemaining.toNat + 1 =
        s.rx.pLen.toNat - (s.rx.pRemaining - 1#16).toNat := by omega
    have hle' : (s.rx.pRemaining - 1#16).toNat ≤ s.rx.pLen.toNat := by omega
    exact .setRx h.specified .readPayload (if_neg hlast) (if_neg (hrem ▸ hlast))
      ⟨⟨hheader, hlen, hfits, hnext ▸ hstored⟩, congrArg (· - 1#16) hrem, one_le_toNat hlast,
        hle'⟩

theorem parseReadCkA_alike {s t : State} (b : Byte) (h : Alike s t) (hst : s.rx.pState = .readCkA) :
    Alike (parseReadCkA b s) (parseReadCkA b t) := by
  obtain ⟨⟨hclass, hid, hpck⟩, hlen, hfits, hfilled⟩ := h.written_at hst
  exact .setRx h.specified .readCkB rfl rfl ⟨⟨⟨hclass, hid, hpck⟩, hlen, hfits, hfilled⟩, rfl⟩

/-- The frame's payload is read from addresses both machines have written. -/
theorem framePayload_alike {s t : State} (hlen : s.rx.pLen = t.rx.pLen)
    (hfilled : FilledAlike s.rx.pLen.toNat s.rx.pbuf t.rx.pbuf) : framePayload t = framePayload s := by
  unfold framePayload
  rw [← hlen]
  refine List.map_congr_left fun k hk => ?_
  obtain ⟨v, hs, ht⟩ := hfilled k (List.mem_range.1 hk)
  rw [memRead_of_read hs, memRead_of_read ht]

theorem parseReadCkB_alike {s t : State} (b : Byte) (h : Alike s t) (hst : s.rx.pState = .readCkB) :
    OutcomesAlike (execParseByte b s) (execParseByte b t) := by
  obtain ⟨⟨⟨hclass, hid, hpck⟩, hlen, hfits, hfilled⟩, hcka⟩ := h.written_at hst
  have hst' := h.pState.trans hst
  by_cases hck : s.rx.pRxCka = s.rx.pck.a ∧ b = s.rx.pck.b
  · obtain ⟨ha, hb⟩ := hck
    rw [execParseByte_readCkB_match b hst ha hb hfits,
      execParseByte_readCkB_match b hst' (hcka ▸ hpck ▸ ha) (hpck ▸ hb) (hlen ▸ h.maxPayload ▸ hfits),
      framePayload_alike hlen hfilled, ← hclass, ← hid]
    exact .next (h.settle _)
  · rw [execParseByte_readCkB_mismatch b hst hck, execParseByte_readCkB_mismatch b hst' (hcka ▸ hpck ▸ hck)]
    exact .next (h.settle _)

theorem execParseByte_alike {s t : State} (b : Byte) (h : Alike s t) :
    OutcomesAlike (execParseByte b s) (execParseByte b t) := by
  cases hst : s.rx.pState with
  | seekSync1 =>
    rw [execParseByte_seekSync1 b hst, execParseByte_seekSync1 b (h.pState.trans hst)]
    exact .next (parseSeekSync1_alike b h)
  | seekSync2 =>
    rw [execParseByte_seekSync2 b hst, execParseByte_seekSync2 b (h.pState.trans hst)]
    exact .next (parseSeekSync2_alike b h)
  | readClass =>
    rw [execParseByte_readClass b hst, execParseByte_readClass b (h.pState.trans hst)]
    exact .next (parseReadClass_alike b h hst)
  | readId =>
    rw [execParseByte_readId b hst, execParseByte_readId b (h.pState.trans hst)]
    exact .next (parseReadId_alike b h hst)
  | readLenLo =>
    rw [execParseByte_readLenLo b hst, execParseByte_readLenLo b (h.pState.trans hst)]
    exact .next (parseReadLenLo_alike b h hst)
  | readLenHi =>
    rw [execParseByte_readLenHi b hst, execParseByte_readLenHi b (h.pState.trans hst)]
    exact .next (parseReadLenHi_alike b h hst)
  | readPayload =>
    obtain ⟨⟨-, hlen, hfits, -⟩, hrem, hone, hle⟩ := h.written_at hst
    have hx : payloadIndex s < s.maxPayload.val := by rw [payloadIndex_eq hle]; omega
    have hx' : payloadIndex t < t.maxPayload.val := by
      rw [h.maxPayload]
      simpa only [payloadIndex, hlen, hrem] using hx
    rw [execParseByte_readPayload b hst hx, execParseByte_readPayload b (h.pState.trans hst) hx']
    exact .next (storePayloadByte_alike b h hst)
  | readCkA =>
    rw [execParseByte_readCkA b hst, execParseByte_readCkA b (h.pState.trans hst)]
    exact .next (parseReadCkA_alike b h hst)
  | readCkB => exact parseReadCkB_alike b h hst

/-! ## The other commands -/

theorem Alike.encOver {s t : State} (h : Alike s t) (r : State) : Alike (encOver s r) (encOver t r) := by
  obtain ⟨⟨-, hst, hcku, hcap, hfaulted, hport, htx, hevents⟩, hw⟩ := h
  exact ⟨⟨rfl, hst, hcku, hcap, hfaulted, hport, congrArg (· ++ r.tx) htx, congrArg (· ++ r.events) hevents⟩, hw⟩

theorem Alike.ckuOver {s t : State} (h : Alike s t) (r : State) : Alike (ckuOver s r) (ckuOver t r) := by
  obtain ⟨⟨henc, hst, -, hcap, hfaulted, hport, htx, hevents⟩, hw⟩ := h
  exact ⟨⟨henc, hst, rfl, hcap, hfaulted, hport, htx, hevents⟩, hw⟩

theorem Alike.applyReset {s t : State} (h : Alike s t) : Alike (applyReset s) (applyReset t) := by
  obtain ⟨-, -, -, hcap, hfaulted, hport, htx, hevents⟩ := h.specified
  exact ⟨⟨rfl, rfl, rfl, hcap, hfaulted, hport, htx, hevents⟩, trivial⟩

theorem exec_alike (i : Instr) {s t : State} (h : Alike s t) : OutcomesAlike (exec i s) (exec i t) := by
  obtain ⟨henc, -, hcku, -⟩ := h.specified
  obtain hi | hi | hi | rfl := Instr.unit_cases i
  · rw [exec_encoder_local hi s, exec_encoder_local hi t, henc]
    exact .mapNext h.encOver _
  · cases i with
    | parseByte b => exact execParseByte_alike b h
    | _ => cases hi
  · rw [exec_checksum_local hi s, exec_checksum_local hi t, hcku]
    exact .mapNext h.ckuOver _
  · exact .next h.applyReset

/-! ## Sequences of commands -/

theorem Alike.observe_eq {s t : State} (h : Alike s t) : observe s = observe t := by
  obtain ⟨henc, -, hcku, -, -, -, htx, hevents⟩ := h.specified
  simp only [observe, encBusy, ckAOut, ckBOut, henc, hcku, htx, hevents]

theorem runInstrs_alike (cmds : List Instr) {s t : State} (h : Alike s t) :
    observeOutcome (runInstrs cmds s) = observeOutcome (runInstrs cmds t) := by
  induction cmds generalizing s t with
  | nil => exact congrArg Host.Outcome.next h.observe_eq
  | cons i is ih =>
    have hexec := exec_alike i h
    simp only [runInstrs]
    generalize exec i s = os at hexec
    generalize exec i t = ot at hexec
    cases hexec with
    | next h' => exact ih h'
    | fault r => rfl
    | refused r => rfl

/-- Settles O57: the two machines are alike to begin with, as a parser that seeks its first sync byte has written
nothing, and every command keeps them alike. -/
theorem unspecifiedResetValuesAreUnobservable : Obligations.UnspecifiedResetValuesAreUnobservable := by
  unfold Obligations.UnspecifiedResetValuesAreUnobservable
  intro s t cmds hagree hst
  have hwritten : WrittenAlike s.maxPayload s.rx t.rx s.rx.pState := hst ▸ trivial
  exact runInstrs_alike cmds ⟨hagree, hwritten⟩

end Sys2Proof.Machine
end

section
/-! PBUF's frame (R34, R91): a PBUF byte reads as before where neither the bytes written nor the reset number changed,
and of the commands only a PARSE_BYTE in ReadPayload changes the first and only RESET the second. -/

namespace Sys2Proof.Machine

/-! ## What reading PBUF rests on -/

/-- Reading PBUF rests on its bytes and the reset number only. -/
theorem memRead_congr {s t : State} (hbuf : t.rx.pbuf = s.rx.pbuf) (hepoch : t.freeEpoch = s.freeEpoch) (a : Nat) :
    memRead t a = memRead s a := by
  simp only [memRead, hbuf, hepoch]

theorem exec_keeps_freeEpoch {i : Instr} {s t : State} (hr : i ≠ .reset) (h : exec i s = .next t) :
    t.freeEpoch = s.freeEpoch := by
  obtain hu | hu | hu | hu := Instr.unit_cases i
  · obtain ⟨r, -, rfl⟩ := exec_encoder_next hu h
    rfl
  · obtain ⟨r, -, rfl⟩ := exec_parser_next hu h
    rfl
  · obtain ⟨r, -, rfl⟩ := exec_checksum_next hu h
    rfl
  · exact absurd hu hr

/-! ## PARSE_BYTE outside ReadPayload leaves PBUF alone -/

@[simp] theorem parseSeekSync1_pbuf (b : Byte) (s : State) : (parseSeekSync1 b s).rx.pbuf = s.rx.pbuf := by
  unfold parseSeekSync1
  split
  · exact setPState_pbuf ..
  · rfl

@[simp] theorem parseSeekSync2_pbuf (b : Byte) (s : State) : (parseSeekSync2 b s).rx.pbuf = s.rx.pbuf := by
  unfold parseSeekSync2
  split
  · rfl
  · split <;> exact setPState_pbuf ..

@[simp] theorem parseReadClass_pbuf (b : Byte) (s : State) : (parseReadClass b s).rx.pbuf = s.rx.pbuf := rfl
@[simp] theorem parseReadId_pbuf (b : Byte) (s : State) : (parseReadId b s).rx.pbuf = s.rx.pbuf := rfl
@[simp] theorem parseReadLenLo_pbuf (b : Byte) (s : State) : (parseReadLenLo b s).rx.pbuf = s.rx.pbuf := rfl

/-- An accepted length opens the payload without clearing what PBUF holds (R90). -/
@[simp] theorem parseReadLenHi_pbuf (b : Byte) (s : State) : (parseReadLenHi b s).rx.pbuf = s.rx.pbuf := by
  by_cases hlong : s.maxPayload.val < (setLenHi s.rx.pLen b).toNat
  · rw [parseReadLenHi_tooLarge hlong]
    rfl
  by_cases hzero : setLenHi s.rx.pLen b = 0#16
  · rw [parseReadLenHi_zero hzero]
  · rw [parseReadLenHi_payload hlong hzero]

@[simp] theorem parseReadCkA_pbuf (b : Byte) (s : State) : (parseReadCkA b s).rx.pbuf = s.rx.pbuf := rfl

theorem parseReadCkB_keeps_pbuf {b : Byte} {s t : State} (h : parseReadCkB b s = .next t) :
    t.rx.pbuf = s.rx.pbuf := by
  obtain ⟨-, -, -, rfl⟩ | ⟨-, rfl⟩ := parseReadCkB_next h
  · rfl
  · rfl

theorem execParseByte_keeps_pbuf {b : Byte} {s t : State} (hst : s.rx.pState ≠ .readPayload)
    (h : execParseByte b s = .next t) : t.rx.pbuf = s.rx.pbuf := by
  obtain ⟨-, rfl⟩ | ⟨-, rfl⟩ | ⟨-, rfl⟩ | ⟨-, rfl⟩ | ⟨-, rfl⟩ | ⟨-, rfl⟩ | ⟨hpay, -⟩ | ⟨-, rfl⟩ | ⟨-, hckB⟩ :=
    execParseByte_next h
  · exact parseSeekSync1_pbuf ..
  · exact parseSeekSync2_pbuf ..
  · exact parseReadClass_pbuf ..
  · exact parseReadId_pbuf ..
  · exact parseReadLenLo_pbuf ..
  · exact parseReadLenHi_pbuf ..
  · exact absurd hpay hst
  · exact parseReadCkA_pbuf ..
  · exact parseReadCkB_keeps_pbuf hckB

/-! ## PARSE_BYTE in ReadPayload is one write -/

theorem execParseByte_next_of_readPayload {b : Byte} {s t : State} (hst : s.rx.pState = .readPayload)
    (h : execParseByte b s = .next t) : t = storePayloadByte b s := by
  simp only [execParseByte, hst] at h
  obtain ⟨-, ht⟩ := parseReadPayload_next h
  exact ht

/-- Of what reading PBUF rests on, storing a payload byte changes the one byte it writes. -/
theorem memRead_storePayloadByte (b : Byte) (s : State) (a : Nat) :
    memRead (storePayloadByte b s) a = memRead (memWrite s (payloadIndex s) b) a :=
  memRead_congr rfl rfl a

/-- Settles O52: a PARSE_BYTE in ReadPayload is a write at `payloadIndex`; every other command but RESET keeps PBUF's
bytes and the reset number. -/
theorem pbufFrame : Obligations.PbufFrame := by
  unfold Obligations.PbufFrame
  refine ⟨fun s t b h hst => ?_, fun s t b h hst => ?_, fun i s t h hi hr => ?_⟩
  · obtain rfl := execParseByte_next_of_readPayload hst h
    refine ⟨?_, fun a ha => ?_⟩
    · rw [memRead_storePayloadByte, memRead_memWrite_same]
    · rw [memRead_storePayloadByte, memRead_memWrite_ne s b ha]
  · exact memRead_congr (execParseByte_keeps_pbuf hst h) (exec_keeps_freeEpoch (by simp) h)
  · exact memRead_congr (congrArg Parser.pbuf (exec_keeps_rx hi hr h)) (exec_keeps_freeEpoch hr h)

end Sys2Proof.Machine
end

section
/-! The encoding (R50 to R62): a word is its fields side by side, so a word that decodes is the encoder's word for its
command; which words a row of R52 selects and which words are rejected follow from that. -/

namespace Sys2Proof

/-! ## A word is its fields side by side -/

@[simp] theorem place_zero (n lo : Nat) : place 0#n lo = 0#64 := by
  simp [place]

/-- Two adjacent fields, each in its place, are the one field they make up. -/
theorem place_adjacent (w : CmdWord) (lo k m : Nat) :
    place (w.extractLsb' (lo + k) m) (lo + k) ||| place (w.extractLsb' lo k) lo =
      place (w.extractLsb' lo (k + m)) lo := by
  apply BitVec.eq_of_getLsbD_eq
  intro i hi
  simp only [BitVec.getLsbD_or, getLsbD_place, BitVec.getLsbD_extractLsb']
  by_cases hlo : i < lo
  · have h : i < lo + k := by omega
    simp [hlo, h]
  by_cases hk : i < lo + k
  · have h1 : i - lo < k := by omega
    have h2 : i - lo < k + m := by omega
    simp [hi, hlo, hk, h1, h2]
  · have h1 : ¬ i - lo < k := by omega
    have h2 : i - (lo + k) < m ↔ i - lo < k + m := by omega
    have h3 : lo + k + (i - (lo + k)) = lo + (i - lo) := by omega
    simp [hi, hlo, hk, h1, h2, h3]

/-- The commands without operands: OP and the other 60 bits. -/
theorem word_eq_op_body (w : CmdWord) : w = place (opField w) 60 ||| place (bodyField w) 0 := by
  have hop := place_adjacent w 0 60 4
  simp only [opField, bodyField]
  rw [hop]
  simp [place]

/-- All five fields of R50. -/
theorem word_eq_fields (w : CmdWord) :
    w = place (opField w) 60 ||| place (clsField w) 52 ||| place (idField w) 44 ||| place (rsvField w) 32 |||
      place (opndField w) 0 := by
  have hrsv := place_adjacent w 0 32 12
  have hid := place_adjacent w 0 44 8
  have hcls := place_adjacent w 0 52 8
  simp only [BitVec.or_assoc, opField, clsField, idField, rsvField, opndField]
  rw [hrsv, hid, hcls]
  exact word_eq_op_body w

/-- OPND with DATA apart from its must-be-zero bits. -/
theorem place_opndField (w : CmdWord) :
    place (opndField w) 0 = place (opndHighField w) 8 ||| place (dataField w) 0 :=
  (place_adjacent w 0 8 24).symm

/-! ## What the decoder accepts (R54) -/

theorem acceptIf_eq_ok {c : Bool} {i j : Instr} : acceptIf c i = .ok j ↔ c = true ∧ i = j := by
  cases c <;> simp [acceptIf]

theorem onlyData_iff {w : CmdWord} :
    onlyData w = true ↔ clsField w = 0#8 ∧ idField w = 0#8 ∧ rsvField w = 0#12 ∧ opndHighField w = 0#24 := by
  simp [onlyData, and_assoc]

/-! ## A word whose must-be-zero bits are zero is the encoder's (R53, R58) -/

theorem encode_encBegin_fields {w : CmdWord} (hop : opField w = 0x1#4) (hrsv : rsvField w = 0#12) :
    encode (.encBegin (clsField w) (idField w) (opndField w)) = w := by
  have hw := word_eq_fields w
  rw [hop, hrsv, place_zero, BitVec.or_zero] at hw
  exact hw.symm

theorem encode_encPoll_fields {w : CmdWord} (hop : opField w = 0x3#4) (hrsv : rsvField w = 0#12)
    (hopnd : opndField w = 0#32) : encode (.encPoll (clsField w) (idField w)) = w := by
  have hw := word_eq_fields w
  rw [hop, hrsv, hopnd, place_zero, place_zero, BitVec.or_zero, BitVec.or_zero] at hw
  exact hw.symm

/-- ENC_DATA, PARSE_BYTE and CK_UPDATE: a word whose one operand is DATA is its OP and that byte. -/
theorem dataWord_eq {w : CmdWord} {op : BitVec 4} (hop : opField w = op) (h : onlyData w = true) :
    place op 60 ||| place (dataField w) 0 = w := by
  obtain ⟨hcls, hid, hrsv, hhigh⟩ := onlyData_iff.1 h
  have hw := word_eq_fields w
  rw [place_opndField, hop, hcls, hid, hrsv, hhigh] at hw
  simpa using hw.symm

/-- CK_CLEAR and RESET: a word without operands is its OP. -/
theorem opWord_eq {w : CmdWord} {op : BitVec 4} (hop : opField w = op) (h : bodyField w = 0#60) : place op 60 = w := by
  have hw := word_eq_op_body w
  rw [hop, h, place_zero, BitVec.or_zero] at hw
  exact hw.symm

/-- The decoder accepts a word only as the command whose word it is (R54, R58). -/
theorem encode_of_decode {w : CmdWord} {i : Instr} (h : decode w = .ok i) : encode i = w := by
  have opIs {op : BitVec 4} (hop : (opField w).toNat = op.toNat) : opField w = op := BitVec.eq_of_toNat_eq hop
  unfold decode at h
  split at h
  · next hop =>
    obtain ⟨hrsv, rfl⟩ := acceptIf_eq_ok.1 h
    exact encode_encBegin_fields (opIs hop) (eq_of_beq hrsv)
  · next hop =>
    obtain ⟨hdata, rfl⟩ := acceptIf_eq_ok.1 h
    exact dataWord_eq (opIs hop) hdata
  · next hop =>
    obtain ⟨hzero, rfl⟩ := acceptIf_eq_ok.1 h
    obtain ⟨hrsv, hopnd⟩ := Bool.and_eq_true_iff.1 hzero
    exact encode_encPoll_fields (opIs hop) (eq_of_beq hrsv) (eq_of_beq hopnd)
  · next hop =>
    obtain ⟨hdata, rfl⟩ := acceptIf_eq_ok.1 h
    exact dataWord_eq (opIs hop) hdata
  · next hop =>
    obtain ⟨hbody, rfl⟩ := acceptIf_eq_ok.1 h
    exact opWord_eq (opIs hop) (eq_of_beq hbody)
  · next hop =>
    obtain ⟨hdata, rfl⟩ := acceptIf_eq_ok.1 h
    exact dataWord_eq (opIs hop) hdata
  · next hop =>
    obtain ⟨hbody, rfl⟩ := acceptIf_eq_ok.1 h
    exact opWord_eq (opIs hop) (eq_of_beq hbody)
  · cases h

/-- Encoding and decoding are inverse to each other. -/
theorem decode_eq_ok_iff {w : CmdWord} {i : Instr} : decode w = .ok i ↔ encode i = w :=
  ⟨encode_of_decode, fun h => h ▸ decode_encode i⟩

/-- Settles O1: the fields the decoder reads are the ones the encoder placed. -/
theorem decodeOfEncodeIsTheCommand : Obligations.DecodeOfEncodeIsTheCommand := decode_encode

/-- Settles O2: the must-be-zero bits the decoder checks are all the bits the command does not give. -/
theorem encodeOfDecodeIsTheWord : Obligations.EncodeOfDecodeIsTheWord := fun _ _ => encode_of_decode

/-- Settles O4: each word written out is the encoder's word of its command. -/
theorem writtenWordsDecode : Obligations.WrittenWordsDecode :=
  ⟨decode_encode (.encBegin 0x05#8 0x01#8 2#32), decode_encode (.encData 0xFF#8), decode_encode (.encPoll 0x06#8 0x01#8),
    decode_encode (.parseByte 0xB5#8), decode_encode .ckClear, decode_encode (.ckUpdate 0x06#8), decode_encode .reset⟩

/-! ## The rows of R52 -/

/-- The row of a command selects its word. -/
theorem exists_row_of_encode (i : Instr) : ∃ r ∈ opRows, r.mnemonic = i.mnemonic ∧ r.selects (encode i) = true := by
  cases i with
  | encBegin cls id len => exact Laws.EncodeSelectsRow.encBegin cls id len
  | encData b => exact Laws.EncodeSelectsRow.encData b
  | encPoll cls id => exact Laws.EncodeSelectsRow.encPoll cls id
  | parseByte b => exact Laws.EncodeSelectsRow.parseByte b
  | ckClear => exact Laws.EncodeSelectsRow.ckClear
  | ckUpdate b => exact Laws.EncodeSelectsRow.ckUpdate b
  | reset => exact Laws.EncodeSelectsRow.reset

/-- A row's mnemonic names it. -/
theorem row_eq_of_mnemonic_eq : ∀ r ∈ opRows, ∀ r' ∈ opRows, r.mnemonic = r'.mnemonic → r = r' := by
  decide

/-- A field that a row's mask keeps whole is the pattern's. -/
theorem field_of_masked {w m p : CmdWord} {lo n : Nat} (h : w &&& m = p)
    (hm : m.extractLsb' lo n = BitVec.allOnes n) : w.extractLsb' lo n = p.extractLsb' lo n := by
  rw [← h, extractLsb'_and_words, hm, BitVec.and_allOnes]

/-- The rows of the commands whose one operand is DATA. -/
theorem dataWord_of_masked {w : CmdWord} {op : BitVec 4} (h : w &&& 0xFFFFFFFFFFFFFF00#64 = place op 60) :
    place op 60 ||| place (dataField w) 0 = w := by
  have zero {lo n : Nat} (hm : (0xFFFFFFFFFFFFFF00#64 : CmdWord).extractLsb' lo n = BitVec.allOnes n)
      (hlo : lo + n ≤ 60) : w.extractLsb' lo n = 0#n :=
    (field_of_masked h hm).trans (extractLsb'_place_disjoint _ _ _ _ (.inl hlo))
  have hop : opField w = op := (field_of_masked h (by decide)).trans (extractLsb'_place_same _ _ (by omega))
  exact dataWord_eq hop (onlyData_iff.2 ⟨zero (by decide) (by omega), zero (by decide) (by omega),
    zero (by decide) (by omega), zero (by decide) (by omega)⟩)

/-- A word that a row selects is the word of a command with that row's mnemonic. -/
theorem exists_encode_of_selects {r : OpRow} {w : CmdWord} (hr : r ∈ opRows) (h : w &&& r.mask = r.pattern) :
    ∃ i : Instr, encode i = w ∧ i.mnemonic = r.mnemonic := by
  simp only [opRows, List.mem_cons, List.not_mem_nil, or_false] at hr
  obtain rfl | rfl | rfl | rfl | rfl | rfl | rfl := hr
  · exact ⟨_, encode_encBegin_fields (field_of_masked h (by decide)) (field_of_masked h (by decide)), rfl⟩
  · exact ⟨.encData (dataField w), dataWord_of_masked h, rfl⟩
  · exact ⟨_, encode_encPoll_fields (field_of_masked h (by decide)) (field_of_masked h (by decide))
      (field_of_masked h (by decide)), rfl⟩
  · exact ⟨.parseByte (dataField w), dataWord_of_masked h, rfl⟩
  · exact ⟨.ckClear, (BitVec.and_allOnes.symm.trans h).symm, rfl⟩
  · exact ⟨.ckUpdate (dataField w), dataWord_of_masked h, rfl⟩
  · exact ⟨.reset, (BitVec.and_allOnes.symm.trans h).symm, rfl⟩

/-- A row selects exactly the words of the commands it names. -/
theorem selects_iff_decodes {r : OpRow} (hr : r ∈ opRows) (w : CmdWord) :
    w &&& r.mask = r.pattern ↔ ∃ i, decode w = .ok i ∧ i.mnemonic = r.mnemonic := by
  constructor
  · intro h
    obtain ⟨i, hi, hm⟩ := exists_encode_of_selects hr h
    exact ⟨i, decode_eq_ok_iff.2 hi, hm⟩
  · rintro ⟨i, hi, hm⟩
    obtain ⟨r', hr', hm', hsel⟩ := exists_row_of_encode i
    obtain rfl := row_eq_of_mnemonic_eq r' hr' r hr (hm'.trans hm)
    rw [encode_of_decode hi] at hsel
    exact eq_of_beq hsel

/-- A well-formed word decodes, and no other does. -/
theorem wf_iff_decodes (w : CmdWord) : w.wf = true ↔ ∃ i, decode w = .ok i := by
  constructor
  · intro h
    obtain ⟨r, hr, hsel⟩ := List.any_eq_true.1 h
    obtain ⟨i, hi, -⟩ := (selects_iff_decodes hr w).1 (eq_of_beq hsel)
    exact ⟨i, hi⟩
  · rintro ⟨i, hi⟩
    obtain ⟨r, hr, -, hsel⟩ := exists_row_of_encode i
    rw [encode_of_decode hi] at hsel
    exact List.any_eq_true.2 ⟨r, hr, hsel⟩

theorem decode_error_of_not_ok {w : CmdWord} (h : ∀ i, decode w ≠ .ok i) : ∃ e, decode w = .error e := by
  cases hw : decode w with
  | ok i => exact absurd hw (h i)
  | error e => exact ⟨e, rfl⟩

/-- Settles O3: a row's words are those of the commands it names, and its mnemonic is no other row's. -/
theorem decodeAgreesWithMatchAndMask : Obligations.DecodeAgreesWithMatchAndMask := by
  unfold Obligations.DecodeAgreesWithMatchAndMask
  refine ⟨fun w r hr => selects_iff_decodes hr w, fun w r hr r' hr' h h' => ?_, fun w h => ?_⟩
  · obtain ⟨i, hi, hm⟩ := (selects_iff_decodes hr w).1 h
    obtain ⟨j, hj, hm'⟩ := (selects_iff_decodes hr' w).1 h'
    obtain rfl : i = j := Except.ok.inj (hi.symm.trans hj)
    exact row_eq_of_mnemonic_eq r hr r' hr' (hm.symm.trans hm')
  · refine decode_error_of_not_ok fun i hi => ?_
    obtain ⟨r, hr, hsel⟩ := List.any_eq_true.1 ((wf_iff_decodes w).2 ⟨i, hi⟩)
    exact h r hr (eq_of_beq hsel)

/-! ## Rejected words (R55, R56) -/

/-- OP as a number: the top four bits. -/
theorem opField_toNat (w : CmdWord) : (opField w).toNat = w.toNat / 2 ^ 60 := by
  have := w.isLt
  simp only [opField, BitVec.extractLsb'_toNat, Nat.shiftRight_eq_div_pow]
  omega

theorem decode_reservedOpcode {w : CmdWord} (h : (opField w).toNat = 0 ∨ 8 ≤ (opField w).toNat) :
    decode w = .error .reservedOpcode := by
  unfold decode
  split
  case h_8 => rfl
  all_goals omega

/-- The bits that R53 wants zero, by OP. -/
structure ReservedBitsZero (w : CmdWord) : Prop where
  encBegin : w.extractLsb' 60 4 = 1#4 → w.extractLsb' 32 12 = 0#12
  encPoll : w.extractLsb' 60 4 = 3#4 → w.extractLsb' 32 12 = 0#12 ∧ w.extractLsb' 0 32 = 0#32
  onlyData : w.extractLsb' 60 4 = 2#4 ∨ w.extractLsb' 60 4 = 4#4 ∨ w.extractLsb' 60 4 = 6#4 →
    w.extractLsb' 52 8 = 0#8 ∧ w.extractLsb' 44 8 = 0#8 ∧ w.extractLsb' 32 12 = 0#12 ∧ w.extractLsb' 8 24 = 0#24
  onlyOp : w.extractLsb' 60 4 = 5#4 ∨ w.extractLsb' 60 4 = 7#4 → w.extractLsb' 0 60 = 0#60

theorem encode_reservedBitsZero (i : Instr) : ReservedBitsZero (encode i) := by
  cases i <;> constructor <;>
    simp (disch := omega) [encode, extractLsb'_or_words, extractLsb'_place_same, extractLsb'_place_disjoint]

/-- A word that decodes has zeros where R53 wants them. -/
theorem decode_reservedBitsZero {w : CmdWord} {i : Instr} (h : decode w = .ok i) : ReservedBitsZero w :=
  encode_of_decode h ▸ encode_reservedBitsZero i

end Sys2Proof

namespace Sys2Proof.Machine

open Sys2Proof

/-- Decoding comes before any effect: a step that takes a word that spells no command faults (R54, R56). -/
theorem step_of_rejected {s : State} {w : CmdWord} {rest : List PortInput} (hf : s.faulted = false)
    (hp : s.port = .command w :: rest) (hw : ∀ i, decode w ≠ .ok i) : step s = .fault .reservedEncoding := by
  obtain ⟨e, he⟩ := decode_error_of_not_ok hw
  simp [step, takeInput, actionOfWord, hf, hp, he]

/-- Settles O5: a reserved OP is rejected, and the step that takes it faults. -/
theorem reservedOpcodeFaults : Obligations.ReservedOpcodeFaults := by
  unfold Obligations.ReservedOpcodeFaults
  intro s w rest hop
  rw [← opField_toNat] at hop
  have hw : ∀ i, decode w ≠ .ok i := by simp [decode_reservedOpcode hop]
  exact ⟨hw, fun hf => step_of_rejected hf rfl hw⟩

/-- Settles O6: a word that decodes has zeros in its must-be-zero bits and a row that matches it. -/
theorem nonzeroReservedBitFaults : Obligations.NonzeroReservedBitFaults := by
  unfold Obligations.NonzeroReservedBitFaults
  refine ⟨fun s w rest hf hbits => step_of_rejected hf rfl fun i hi => ?_,
    fun s w rest hf hwf => step_of_rejected hf rfl fun i hi => ?_⟩
  · obtain ⟨hbegin, hpoll, hdata, honly⟩ := decode_reservedBitsZero hi
    obtain ⟨hop, hne⟩ | ⟨hop, hne⟩ | ⟨hop, hne⟩ | ⟨hop, hne⟩ := hbits
    · exact hne (hbegin hop)
    · simp [hpoll hop] at hne
    · simp [hdata hop] at hne
    · exact hne (honly hop)
  · have htrue := (wf_iff_decodes w).2 ⟨i, hi⟩
    simp [hwf] at htrue

end Sys2Proof.Machine
end

section
/-! The assembler (R58 to R61): a word as a number, then what a line is refused for and what it expands to. -/

namespace Sys2Proof

/-! ## Words as numbers (R50, R58) -/

theorem toNat_place {n lo : Nat} (v : BitVec n) (hn : lo + n ≤ 64) : (place v lo).toNat = v.toNat * 2 ^ lo := by
  have hfits : v.toNat * 2 ^ lo < 2 ^ 64 :=
    calc v.toNat * 2 ^ lo < 2 ^ n * 2 ^ lo := Nat.mul_lt_mul_of_pos_right v.isLt (by positivity)
      _ = 2 ^ (n + lo) := (pow_add 2 n lo).symm
      _ ≤ 2 ^ 64 := Nat.pow_le_pow_right (by omega) (by omega)
  rw [place, BitVec.toNat_shiftLeft, BitVec.toNat_setWidth_of_le (by omega), Nat.shiftLeft_eq, Nat.mod_eq_of_lt hfits]

/-- A field placed above a word's bits adds to it. -/
theorem toNat_place_or {n lo : Nat} (v : BitVec n) {x : CmdWord} (hn : lo + n ≤ 64) (hx : x.toNat < 2 ^ lo) :
    (place v lo ||| x).toNat = v.toNat * 2 ^ lo + x.toNat := by
  rw [BitVec.toNat_or, toNat_place v hn, ← Nat.shiftLeft_eq, Nat.shiftLeft_add_eq_or_of_lt hx]

theorem toNat_headerWord (op : BitVec 4) (cls id : Byte) (len : LenReq) :
    (place op 60 ||| place cls 52 ||| place id 44 ||| place len 0).toNat =
      op.toNat * 2 ^ 60 + cls.toNat * 2 ^ 52 + id.toNat * 2 ^ 44 + len.toNat := by
  have hcls := cls.isLt
  have hid := id.isLt
  have hlen := len.isLt
  have h0 := toNat_place len (lo := 0) (by omega)
  have h44 := toNat_place_or id (lo := 44) (x := place len 0) (by omega) (by omega)
  have h52 := toNat_place_or cls (lo := 52) (x := place id 44 ||| place len 0) (by omega) (by omega)
  have h60 := toNat_place_or op (lo := 60) (x := place cls 52 ||| (place id 44 ||| place len 0)) (by omega) (by omega)
  rw [BitVec.or_assoc, BitVec.or_assoc, h60, h52, h44, h0, pow_zero, Nat.mul_one]
  simp only [Nat.add_assoc]

theorem toNat_dataWord (op : BitVec 4) (b : Byte) : (place op 60 ||| place b 0).toNat = op.toNat * 2 ^ 60 + b.toNat := by
  have hb := b.isLt
  have h0 := toNat_place b (lo := 0) (by omega)
  have h60 := toNat_place_or op (lo := 60) (x := place b 0) (by omega) (by omega)
  omega

theorem word_eq_ofNat {w : CmdWord} {n : Nat} (h : w.toNat = n) : w = BitVec.ofNat 64 n := by
  simp [← h]

/-! ## The words of numbers that fit their fields -/

theorem toNat_asmByte {n : Nat} (h : n ≤ 255) : (asmByte n).toNat = n := by
  rw [asmByte, BitVec.toNat_ofNat]
  omega

@[simp] theorem asmByte_toNat (b : Byte) : asmByte b.toNat = b := by
  simp [asmByte]

theorem encode_encBegin_asm {cls id len : Nat} (hcls : cls ≤ 255) (hid : id ≤ 255) (hlen : len ≤ 0xFFFFFFFF) :
    encode (.encBegin (asmByte cls) (asmByte id) (BitVec.ofNat 32 len)) =
      BitVec.ofNat 64 (0x1 * 2 ^ 60 + cls * 2 ^ 52 + id * 2 ^ 44 + len) := by
  have hlen' : (BitVec.ofNat 32 len).toNat = len := by
    rw [BitVec.toNat_ofNat]
    omega
  have hw := toNat_headerWord 0x1#4 (asmByte cls) (asmByte id) (BitVec.ofNat 32 len)
  rw [toNat_asmByte hcls, toNat_asmByte hid, hlen'] at hw
  exact word_eq_ofNat hw

theorem encode_encPoll_asm {cls id : Nat} (hcls : cls ≤ 255) (hid : id ≤ 255) :
    encode (.encPoll (asmByte cls) (asmByte id)) = BitVec.ofNat 64 (0x3 * 2 ^ 60 + cls * 2 ^ 52 + id * 2 ^ 44) := by
  have hw := toNat_headerWord 0x3#4 (asmByte cls) (asmByte id) 0#32
  rw [toNat_asmByte hcls, toNat_asmByte hid, place_zero, BitVec.or_zero, BitVec.toNat_zero, Nat.add_zero] at hw
  exact word_eq_ofNat hw

/-- ENC_DATA, PARSE_BYTE and CK_UPDATE: OP, then the byte at bit 0. -/
theorem dataWord_asm (op : BitVec 4) {b : Nat} (hb : b ≤ 255) :
    place op 60 ||| place (asmByte b) 0 = BitVec.ofNat 64 (op.toNat * 2 ^ 60 + b) := by
  have hw := toNat_dataWord op (asmByte b)
  rw [toNat_asmByte hb] at hw
  exact word_eq_ofNat hw

/-- A list of bytes, one command a byte (R59 to R61). -/
theorem dataWords_asm (op : BitVec 4) {f : Byte → Instr} (hf : ∀ b, encode (f b) = place op 60 ||| place b 0)
    {bs : List Nat} (hbs : ∀ b ∈ bs, b ≤ 255) :
    (bs.map fun b => f (asmByte b)).map encode = bs.map fun b => BitVec.ofNat 64 (op.toNat * 2 ^ 60 + b) := by
  rw [List.map_map]
  exact List.map_congr_left fun b hb => (hf _).trans (dataWord_asm op (hbs b hb))

/-! ## What an assembler refuses -/

theorem asmByteOk_iff {n : Nat} : asmByteOk n = true ↔ n ≤ 255 := decide_eq_true_iff
theorem asmLenOk_iff {n : Nat} : asmLenOk n = true ↔ n ≤ 0xFFFFFFFF := decide_eq_true_iff

theorem all_asmByteOk_iff {bs : List Nat} : bs.all asmByteOk = true ↔ ∀ b ∈ bs, b ≤ 255 := by
  simp only [List.all_eq_true, asmByteOk_iff]

/-- The bytes of a list of bytes fit. -/
theorem toNat_le_of_mem {bs : List Byte} : ∀ b ∈ bs.map BitVec.toNat, b ≤ 255 := by
  intro b hb
  obtain ⟨x, -, rfl⟩ := List.mem_map.1 hb
  have := x.isLt
  omega

/-- An assembler gives the words of the commands a line stands for exactly where the line's numbers fit (R58). -/
theorem assemble_eq_ite {l : AsmLine} {ok : Prop} [Decidable ok] {words : List CmdWord} (hwf : l.wf = true ↔ ok)
    (hwords : ok → (expand l).map encode = words) : assemble l = if ok then some words else none := by
  by_cases h : ok
  · simp [assemble, hwf.2 h, hwords h, h]
  · have hrefused : ¬ l.wf = true := fun ht => h (hwf.1 ht)
    simp [assemble, hrefused, h]

theorem wf_encFrame_iff {cls id : Nat} {p : List Nat} : (AsmLine.encFrame cls id p).wf = true ↔
    cls ≤ 255 ∧ id ≤ 255 ∧ (∀ b ∈ p, b ≤ 255) ∧ p.length ≤ 0xFFFFFFFF := by
  simp only [AsmLine.wf, Bool.and_eq_true, asmByteOk_iff, all_asmByteOk_iff, asmLenOk_iff, and_assoc]

/-! ## The plain lines (R58) -/

theorem assemble_encBegin (cls id len : Nat) : assemble (.encBegin cls id len) =
    if cls ≤ 255 ∧ id ≤ 255 ∧ len ≤ 0xFFFFFFFF then
      some [BitVec.ofNat 64 (0x1 * 2 ^ 60 + cls * 2 ^ 52 + id * 2 ^ 44 + len)] else none := by
  refine assemble_eq_ite ?_ fun ⟨hcls, hid, hlen⟩ => congrArg (fun w => [w]) (encode_encBegin_asm hcls hid hlen)
  simp only [AsmLine.wf, Bool.and_eq_true, asmByteOk_iff, asmLenOk_iff, and_assoc]

theorem assemble_encPoll (cls id : Nat) : assemble (.encPoll cls id) =
    if cls ≤ 255 ∧ id ≤ 255 then some [BitVec.ofNat 64 (0x3 * 2 ^ 60 + cls * 2 ^ 52 + id * 2 ^ 44)] else none := by
  refine assemble_eq_ite ?_ fun ⟨hcls, hid⟩ => congrArg (fun w => [w]) (encode_encPoll_asm hcls hid)
  simp only [AsmLine.wf, Bool.and_eq_true, asmByteOk_iff]

theorem assemble_encData (b : Nat) :
    assemble (.encData b) = if b ≤ 255 then some [BitVec.ofNat 64 (0x2 * 2 ^ 60 + b)] else none :=
  assemble_eq_ite asmByteOk_iff fun hb => congrArg (fun w => [w]) (dataWord_asm 0x2#4 hb)

theorem assemble_parseByte (b : Nat) :
    assemble (.parseByte b) = if b ≤ 255 then some [BitVec.ofNat 64 (0x4 * 2 ^ 60 + b)] else none :=
  assemble_eq_ite asmByteOk_iff fun hb => congrArg (fun w => [w]) (dataWord_asm 0x4#4 hb)

theorem assemble_ckUpdate (b : Nat) :
    assemble (.ckUpdate b) = if b ≤ 255 then some [BitVec.ofNat 64 (0x6 * 2 ^ 60 + b)] else none :=
  assemble_eq_ite asmByteOk_iff fun hb => congrArg (fun w => [w]) (dataWord_asm 0x6#4 hb)

/-! ## The pseudo-instructions (R59 to R61) -/

theorem assemble_encFrame (cls id : Nat) (p : List Nat) : assemble (.encFrame cls id p) =
    if cls ≤ 255 ∧ id ≤ 255 ∧ (∀ b ∈ p, b ≤ 255) ∧ p.length ≤ 0xFFFFFFFF then
      some (BitVec.ofNat 64 (0x1 * 2 ^ 60 + cls * 2 ^ 52 + id * 2 ^ 44 + p.length) ::
        if p.length ≤ 65535 then p.map fun b => BitVec.ofNat 64 (0x2 * 2 ^ 60 + b) else [])
    else none := by
  refine assemble_eq_ite wf_encFrame_iff fun ⟨hcls, hid, hbytes, hlen⟩ => ?_
  rw [expand, List.map_cons, encode_encBegin_asm hcls hid hlen]
  split
  · rw [dataWords_asm 0x2#4 (fun _ => rfl) hbytes]
    rfl
  · rfl

theorem assemble_parseBuf (bs : List Nat) : assemble (.parseBuf bs) =
    if ∀ b ∈ bs, b ≤ 255 then some (bs.map fun b => BitVec.ofNat 64 (0x4 * 2 ^ 60 + b)) else none :=
  assemble_eq_ite all_asmByteOk_iff (dataWords_asm 0x4#4 fun _ => rfl)

theorem assemble_ckBuf (bs : List Nat) : assemble (.ckBuf bs) =
    if ∀ b ∈ bs, b ≤ 255 then some (bs.map fun b => BitVec.ofNat 64 (0x6 * 2 ^ 60 + b)) else none :=
  assemble_eq_ite all_asmByteOk_iff (dataWords_asm 0x6#4 fun _ => rfl)

/-! ## The pseudo-instructions over lists of bytes -/

theorem assemble_of_wf {l : AsmLine} (h : l.wf = true) : assemble l = some ((expand l).map encode) := if_pos h

theorem assemble_of_not_wf {l : AsmLine} (h : ¬ l.wf = true) : assemble l = none := if_neg h

/-- An assembler refuses ENC_FRAME over bytes for its length alone. -/
theorem wf_encFrame_bytes_iff (cls id : Byte) (p : List Byte) :
    (AsmLine.encFrame cls.toNat id.toNat (p.map BitVec.toNat)).wf = true ↔ p.length ≤ 0xFFFFFFFF := by
  have hcls := cls.isLt
  have hid := id.isLt
  rw [wf_encFrame_iff, List.length_map]
  exact ⟨fun ⟨_, _, _, hlen⟩ => hlen, fun hlen => ⟨by omega, by omega, toNat_le_of_mem, hlen⟩⟩

theorem expand_encFrame_bytes (cls id : Byte) (p : List Byte) :
    expand (.encFrame cls.toNat id.toNat (p.map BitVec.toNat)) =
      .encBegin cls id (BitVec.ofNat 32 p.length) :: if p.length ≤ 65535 then p.map .encData else [] := by
  simp [expand, Function.comp_def]

theorem wf_parseBuf_bytes (bs : List Byte) : (AsmLine.parseBuf (bs.map BitVec.toNat)).wf = true :=
  all_asmByteOk_iff.2 toNat_le_of_mem

theorem wf_ckBuf_bytes (bs : List Byte) : (AsmLine.ckBuf (bs.map BitVec.toNat)).wf = true :=
  all_asmByteOk_iff.2 toNat_le_of_mem

theorem assemble_parseBuf_bytes (bs : List Byte) :
    assemble (.parseBuf (bs.map BitVec.toNat)) = some (bs.map fun b => encode (.parseByte b)) := by
  rw [assemble_of_wf (wf_parseBuf_bytes bs)]
  simp [expand, Function.comp_def]

theorem assemble_ckBuf_bytes (bs : List Byte) :
    assemble (.ckBuf (bs.map BitVec.toNat)) = some (bs.map fun b => encode (.ckUpdate b)) := by
  rw [assemble_of_wf (wf_ckBuf_bytes bs)]
  simp [expand, Function.comp_def]

/-- Settles O7: line by line, the numbers that fit and the words they give. -/
theorem assemblerLinesExpandAsWritten : Obligations.AssemblerLinesExpandAsWritten := by
  unfold Obligations.AssemblerLinesExpandAsWritten
  refine ⟨assemble_encBegin, assemble_encData, assemble_encPoll, assemble_parseByte, rfl, assemble_ckUpdate, rfl,
    assemble_encFrame, assemble_parseBuf, assemble_ckBuf, fun cls id p hp => ?_, fun cls id p hp hp32 => ?_,
    fun cls id p hp => ?_, assemble_parseBuf_bytes, assemble_ckBuf_bytes⟩
  · rw [assemble_of_wf ((wf_encFrame_bytes_iff cls id p).2 (by omega)), expand_encFrame_bytes, if_pos hp]
    simp [Function.comp_def]
  · rw [assemble_of_wf ((wf_encFrame_bytes_iff cls id p).2 hp32), expand_encFrame_bytes, if_neg (by omega)]
    rfl
  · exact assemble_of_not_wf fun hwf => absurd ((wf_encFrame_bytes_iff cls id p).1 hwf) (by omega)

end Sys2Proof
end

section
/-! The parser over one frame (R98, R49): after the sync pair every byte up to the last one is a field, which says
nothing and leaves the parser in the frame, and the last byte settles the frame. -/

namespace Sys2Proof.Machine

open Sys2Proof Sys2Proof.Safety

/-! ## Bytes that stay inside the frame -/

/-- The parser is inside a frame and has posted nothing since `es`. -/
structure InFrame (es : List Event) (s : State) : Prop where
  events : s.events = es
  notSeek1 : s.rx.pState ≠ .seekSync1
  notSeek2 : s.rx.pState ≠ .seekSync2

/-- The bytes lead from one state to the other, and before and after each of them the parser is inside the frame. -/
inductive FieldRun (es : List Event) : State → List Byte → State → Prop
  | nil {s : State} (hs : InFrame es s) : FieldRun es s [] s
  | cons {s u t : State} {b : Byte} {bs : List Byte} (hs : InFrame es s) (hstep : execParseByte b s = .next u)
      (hrest : FieldRun es u bs t) : FieldRun es s (b :: bs) t

theorem FieldRun.parse {es : List Event} {s t : State} {bs : List Byte} (h : FieldRun es s bs t) :
    parseStream s bs = .next t := by
  induction h with
  | nil => rfl
  | cons _ hstep _ ih => rw [parseStream_cons_next hstep, ih]

theorem FieldRun.inFrame_end {es : List Event} {s t : State} {bs : List Byte} (h : FieldRun es s bs t) :
    InFrame es t := by
  induction h with
  | nil hs => exact hs
  | cons _ _ _ ih => exact ih

theorem FieldRun.append {es : List Event} {s u t : State} {bs cs : List Byte} (h : FieldRun es s bs u)
    (h' : FieldRun es u cs t) : FieldRun es s (bs ++ cs) t := by
  induction h with
  | nil => exact h'
  | cons hs hstep _ ih => exact .cons hs hstep (ih h')

/-- However many of the bytes have been given, the parser is inside the frame. -/
theorem FieldRun.take {es : List Event} {s t : State} {bs : List Byte} (h : FieldRun es s bs t) (k : Nat) :
    ∃ u, parseStream s (bs.take k) = .next u ∧ InFrame es u := by
  induction h generalizing k with
  | nil hs => exact ⟨_, by rw [List.take_nil, parseStream_nil], hs⟩
  | cons hs hstep _ ih =>
    cases k with
    | zero => exact ⟨_, rfl, hs⟩
    | succ k =>
      obtain ⟨u, hu, hin⟩ := ih k
      exact ⟨u, by rw [List.take_succ_cons, parseStream_cons_next hstep, hu], hin⟩

/-- A byte after them that ends the frame is the first at which anything happens. -/
theorem FieldRun.settles {es : List Event} {s u t : State} {bs : List Byte} {b : Byte} (h : FieldRun es s bs u)
    (hlast : execParseByte b u = .next t) :
    (∀ k < bs.length + 1, ∃ v, parseStream s ((bs ++ [b]).take k) = .next v ∧ v.events = es ∧
      v.rx.pState ≠ .seekSync1 ∧ v.rx.pState ≠ .seekSync2) ∧
    parseStream s (bs ++ [b]) = .next t := by
  constructor
  · intro k hk
    obtain ⟨v, hv, hin⟩ := h.take k
    rw [List.take_append_of_le_length (by omega)]
    exact ⟨v, hv, hin.events, hin.notSeek1, hin.notSeek2⟩
  · rw [parseStream_append_next h.parse, parseStream_cons_next hlast, parseStream_nil]

/-! ## The payload (R91) -/

/-- With no payload byte owed the parser waits for CK_A, else for that many payload bytes (R90, R91). -/
def Owes (s : State) : Nat → Prop
  | 0 => s.rx.pState = .readCkA
  | m + 1 => s.rx.pState = .readPayload ∧ s.rx.pRemaining.toNat = m + 1

/-- The parser has taken the header of the frame `c`, `i` and the payload bytes `got`, `x` being the checksum of the
header, and is still to be given the payload bytes `rest`. -/
structure Receiving (c i : Byte) (x : Acc) (got rest : List Byte) (s : State) : Prop where
  pClass : s.rx.pClass = c
  pId : s.rx.pId = i
  pLen : s.rx.pLen.toNat = got.length + rest.length
  fits : s.rx.pLen.toNat ≤ s.maxPayload.val
  pck : s.rx.pck = x.updateAll got
  stored : ∀ k < got.length, s.rx.pbuf.read k = got[k]?
  owes : Owes s rest.length

theorem Receiving.inFrame {c i : Byte} {x : Acc} {got rest : List Byte} {s : State} (h : Receiving c i x got rest s) :
    InFrame s.events s := by
  have howes := h.owes
  cases rest with
  | nil =>
    have hst : s.rx.pState = .readCkA := howes
    exact ⟨rfl, by simp [hst], by simp [hst]⟩
  | cons b rest =>
    obtain ⟨hst, -⟩ := howes
    exact ⟨rfl, by simp [hst], by simp [hst]⟩

@[simp] theorem storePayloadByte_events (b : Byte) (s : State) : (storePayloadByte b s).events = s.events := rfl

/-- A buffer that holds `got`, with one byte written after it, holds one byte more. -/
theorem Memory.read_write_snoc {m : Memory} {got : List Byte} (h : ∀ k < got.length, m.read k = got[k]?) (b : Byte) :
    ∀ k < (got ++ [b]).length, (m.write got.length b).read k = (got ++ [b])[k]? := by
  intro k hk
  rw [List.length_append, List.length_singleton] at hk
  by_cases hlast : k = got.length
  · subst hlast
    simp
  · have hlt : k < got.length := by omega
    rw [Memory.read_write_ne m b hlast, h k hlt, List.getElem?_append_left hlt]

/-- One payload byte more has been taken (R91). -/
theorem Receiving.step {c i b : Byte} {x : Acc} {got rest : List Byte} {s : State}
    (h : Receiving c i x got (b :: rest) s) :
    execParseByte b s = .next (storePayloadByte b s) ∧ Receiving c i x (got ++ [b]) rest (storePayloadByte b s) := by
  obtain ⟨hclass, hid, hlen, hfits, hpck, hstored, hst, hrem⟩ := h
  rw [List.length_cons] at hlen
  have hindex : payloadIndex s = got.length := by
    rw [payloadIndex_eq (by omega)]
    omega
  have hone : 1 ≤ s.rx.pRemaining.toNat := by omega
  have howes : Owes (storePayloadByte b s) rest.length := by
    cases rest with
    | nil => exact if_pos ((countDown_eq_zero hone).2 hrem)
    | cons b' rest =>
      have hmore : s.rx.pRemaining - 1#16 ≠ 0#16 := by
        rw [Ne, countDown_eq_zero hone, hrem]
        simp
      refine ⟨if_neg hmore, ?_⟩
      rw [storePayloadByte_pRemaining, countDown_toNat hone, hrem]
      rfl
  refine ⟨execParseByte_readPayload b hst (by omega), hclass, hid, ?_, hfits, ?_, ?_, howes⟩
  · rw [storePayloadByte_pLen, hlen, List.length_append, List.length_singleton]
    omega
  · rw [Acc.updateAll_append, ← hpck]
    rfl
  · rw [storePayloadByte_pbuf, hindex]
    exact Memory.read_write_snoc hstored b

/-- The whole payload is taken, whatever its bytes. -/
theorem Receiving.fieldRun {c i : Byte} {x : Acc} {got rest : List Byte} {s : State}
    (h : Receiving c i x got rest s) :
    ∃ t, FieldRun s.events s rest t ∧ Receiving c i x (got ++ rest) [] t := by
  induction rest generalizing got s with
  | nil => exact ⟨s, .nil h.inFrame, by simpa using h⟩
  | cons b rest ih =>
    obtain ⟨hstep, hnext⟩ := h.step
    obtain ⟨t, hrun, ht⟩ := ih hnext
    exact ⟨t, .cons h.inFrame hstep hrun, by simpa using ht⟩

/-! ## The checksum bytes (R92 to R94) -/

/-- The frame's payload is what the buffer holds. -/
theorem Receiving.framePayload_eq {c i : Byte} {x : Acc} {p : List Byte} {s : State} (h : Receiving c i x p [] s) :
    framePayload s = p := by
  have hlen : s.rx.pLen.toNat = p.length := h.pLen
  rw [framePayload, hlen]
  refine List.ext_getElem (by simp) fun k hk hkp => ?_
  have hread : s.rx.pbuf.read k = some p[k] := (h.stored k hkp).trans (List.getElem?_eq_getElem hkp)
  simpa using memRead_of_read hread

theorem Acc.eq_mk_iff {x : Acc} {a b : Byte} : x = ⟨a, b⟩ ↔ a = x.a ∧ b = x.b := by
  cases x
  simp [eq_comm]

/-- What the two checksum bytes make of the frame (R93). -/
def verdict (c i : Byte) (p : List Byte) (sum received : Acc) : Event :=
  if sum = received then .frame c i p else .error .checksumMismatch

/-- CK_A is a field like any other, and CK_B settles the frame. -/
theorem Receiving.settle {c i ka kb : Byte} {x : Acc} {p : List Byte} {s : State} (h : Receiving c i x p [] s) :
    FieldRun s.events s [ka] (parseReadCkA ka s) ∧
    ∃ t, execParseByte kb (parseReadCkA ka s) = .next t ∧ t.rx.pState = .seekSync1 ∧
      t.events = s.events ++ [verdict c i p (x.updateAll p) ⟨ka, kb⟩] := by
  have hframe := h.inFrame
  have hpayload : framePayload (parseReadCkA ka s) = p := h.framePayload_eq
  obtain ⟨rfl, rfl, -, hfits, hpck, -, hst⟩ := h
  have hckA : execParseByte ka s = .next (parseReadCkA ka s) := execParseByte_readCkA ka hst
  refine ⟨.cons hframe hckA (.nil ⟨rfl, by simp [parseReadCkA], by simp [parseReadCkA]⟩), ?_⟩
  have hsum : x.updateAll p = ⟨ka, kb⟩ ↔ ka = s.rx.pck.a ∧ kb = s.rx.pck.b := by rw [← hpck, Acc.eq_mk_iff]
  by_cases hck : ka = s.rx.pck.a ∧ kb = s.rx.pck.b
  · obtain ⟨ha, hb⟩ := hck
    refine ⟨_, execParseByte_readCkB_match kb rfl ha hb hfits, rfl, ?_⟩
    rw [hpayload, verdict, if_pos (hsum.2 ⟨ha, hb⟩)]
    rfl
  · refine ⟨_, execParseByte_readCkB_mismatch kb rfl hck, rfl, ?_⟩
    rw [verdict, if_neg (hsum.not.2 hck)]
    rfl

/-! ## The header (R87 to R90) -/

/-- The state after the class, the id and the low length byte. -/
def headerRead (s : State) (c i lo : Byte) : State :=
  parseReadLenLo lo (parseReadId i (parseReadClass c s))

theorem fieldRun_header {s : State} (c i lo : Byte) (hst : s.rx.pState = .readClass) :
    FieldRun s.events s [c, i, lo] (headerRead s c i lo) :=
  .cons ⟨rfl, by simp [hst], by simp [hst]⟩ (execParseByte_readClass c hst) <|
  .cons ⟨rfl, by simp [parseReadClass], by simp [parseReadClass]⟩ (execParseByte_readId i rfl) <|
  .cons ⟨rfl, by simp [parseReadId], by simp [parseReadId]⟩ (execParseByte_readLenLo lo rfl) <|
  .nil ⟨rfl, by simp [parseReadLenLo], by simp [parseReadLenLo]⟩

theorem headerRead_setLenHi (s : State) (c i lo hi : Byte) :
    setLenHi (headerRead s c i lo).rx.pLen hi = lenOf hi lo :=
  setLenHi_setLenLo s.rx.pLen lo hi

/-- The high length byte completes the header (R90). -/
theorem execParseByte_headerRead (s : State) (c i lo hi : Byte) :
    execParseByte hi (headerRead s c i lo) = .next (parseReadLenHi hi (headerRead s c i lo)) :=
  execParseByte_readLenHi hi rfl

/-- An accepted length leaves the parser waiting for that many payload bytes (R90). -/
theorem receiving_of_header {s : State} {c i lo hi : Byte} {p : List Byte} (hlen : p.length = (lenOf hi lo).toNat)
    (hfits : p.length ≤ s.maxPayload.val) :
    (parseReadLenHi hi (headerRead s c i lo)).events = s.events ∧
    Receiving c i (s.rx.pck.updateAll [c, i, lo, hi]) [] p (parseReadLenHi hi (headerRead s c i lo)) := by
  have hn := headerRead_setLenHi s c i lo hi
  have hpLen : (setLenHi (headerRead s c i lo).rx.pLen hi).toNat = p.length := by rw [hn, hlen]
  have hadd : (setLenHi (headerRead s c i lo).rx.pLen hi).toNat = 0 + p.length := by rw [hpLen, Nat.zero_add]
  have hle : (setLenHi (headerRead s c i lo).rx.pLen hi).toNat ≤ s.maxPayload.val := hpLen ▸ hfits
  have hstored {m : Memory} : ∀ k < ([] : List Byte).length, m.read k = ([] : List Byte)[k]? :=
    fun k hk => absurd hk (Nat.not_lt_zero k)
  cases p with
  | nil =>
    have hzero : lenOf hi lo = 0#16 := BitVec.eq_of_toNat_eq hlen.symm
    rw [parseReadLenHi_zero (hn.trans hzero)]
    exact ⟨rfl, rfl, rfl, hadd, hle, rfl, hstored, rfl⟩
  | cons b rest =>
    have hne : setLenHi (headerRead s c i lo).rx.pLen hi ≠ 0#16 := fun h => by simp [h] at hpLen
    rw [parseReadLenHi_payload (not_lt.2 hle) hne]
    exact ⟨rfl, rfl, rfl, hadd, hle, rfl, hstored, rfl, hpLen⟩

/-- A frame whose length is accepted: every byte but the last is a field, and the last one settles the frame (R98). -/
theorem frame_fields_settle {s : State} (c i lo hi ka kb : Byte) {p : List Byte} (hst : s.rx.pState = .readClass)
    (hlen : p.length = (lenOf hi lo).toNat) (hfits : p.length ≤ s.maxPayload.val) :
    ∃ u t, FieldRun s.events s ([c, i, lo, hi] ++ p ++ [ka]) u ∧ execParseByte kb u = .next t ∧
      t.rx.pState = .seekSync1 ∧
      t.events = s.events ++ [verdict c i p (s.rx.pck.updateAll ([c, i, lo, hi] ++ p)) ⟨ka, kb⟩] := by
  obtain ⟨hevents, hrecv⟩ := receiving_of_header hlen hfits (c := c) (i := i)
  obtain ⟨v, hpayload, hv⟩ := hrecv.fieldRun
  rw [hevents] at hpayload
  have hheader : FieldRun s.events s [c, i, lo, hi] (parseReadLenHi hi (headerRead s c i lo)) :=
    (fieldRun_header c i lo hst).append (.cons (fieldRun_header c i lo hst).inFrame_end
      (execParseByte_headerRead s c i lo hi) (.nil (hevents ▸ hrecv.inFrame)))
  have hbody := hheader.append hpayload
  have hv_events : v.events = s.events := hbody.inFrame_end.events
  obtain ⟨hckA, t, hckB, hseek, ht⟩ := hv.settle (ka := ka) (kb := kb)
  rw [hv_events] at hckA ht
  rw [Acc.updateAll_append]
  exact ⟨_, t, hbody.append hckA, hckB, hseek, ht⟩

/-- A length above MAX_PAYLOAD is rejected at its high byte (R90, R98). -/
theorem long_header_rejected {s : State} (c i lo hi : Byte) (hlong : s.maxPayload.val < (lenOf hi lo).toNat) :
    ∃ t, execParseByte hi (headerRead s c i lo) = .next t ∧ t.rx.pState = .seekSync1 ∧
      t.events = s.events ++ [.error .frameTooLarge] := by
  refine ⟨_, execParseByte_headerRead s c i lo hi, ?_⟩
  have hn := headerRead_setLenHi s c i lo hi
  rw [parseReadLenHi_tooLarge (by rw [hn]; exact hlong)]
  exact ⟨rfl, rfl⟩

/-- Settles O36: the bytes before the last one are fields, and the last one posts the one event. -/
theorem frameFieldsAreNeverSync : Obligations.FrameFieldsAreNeverSync := by
  unfold Obligations.FrameFieldsAreNeverSync
  refine ⟨fun s c i lo hi p ka kb hst hlen hfits => ?_, fun s c i lo hi hst hlong => ?_⟩
  · rw [← lenOf_toNat] at hlen
    obtain ⟨u, t, hrun, hlast, hseek, hevents⟩ := frame_fields_settle c i lo hi ka kb hst hlen hfits
    obtain ⟨hquiet, hparse⟩ := hrun.settles hlast
    have hsplit : [c, i, lo, hi] ++ p ++ [ka, kb] = ([c, i, lo, hi] ++ p ++ [ka]) ++ [kb] := by simp
    rw [hsplit]
    exact ⟨fun k hk => hquiet k (by simp; omega), t, hparse, hseek, hevents⟩
  · rw [← lenOf_toNat] at hlong
    obtain ⟨t, hlast, hseek, hevents⟩ := long_header_rejected c i lo hi hlong
    obtain ⟨hquiet, hparse⟩ := (fieldRun_header c i lo hst).settles hlast
    exact ⟨hquiet, t, hparse, hseek, hevents⟩

/-! ## The valid frames are the encoded ones (R49, R73) -/

theorem encodeFrame_eq_ok_iff {c i : Byte} {p f : List Byte} :
    encodeFrame c i p = .ok f ↔ p.length ≤ 65535 ∧ f = frameBytes c i p := by
  unfold encodeFrame
  split
  · next hlong =>
    have hp : ¬ p.length ≤ 65535 := not_le.2 hlong
    simp [hp]
  · next hshort =>
    have hp : p.length ≤ 65535 := not_lt.1 hshort
    simp [hp, eq_comm]

/-- A frame's bytes from the length it declares, the two length bytes as they stand (R44). -/
theorem frameBytes_eq {c i lo hi : Byte} {p : List Byte} (hlen : p.length = (lenOf hi lo).toNat) :
    frameBytes c i p =
      [Config.sync1, Config.sync2, c, i, lo, hi] ++ p ++ ckBytes (checksum ([c, i, lo, hi] ++ p)) := by
  have hn : BitVec.ofNat 16 p.length = lenOf hi lo := by rw [hlen, BitVec.ofNat_toNat, BitVec.setWidth_eq]
  simp only [frameBytes, frameHeader, frameChecksum, summedHeader, hn, lenLo_lenOf, lenHi_lenOf]

/-- A length that the 16-bit field holds is spelled by two length bytes (R44, R46). -/
theorem exists_lengthBytes {n : Nat} (h : n ≤ 65535) : ∃ hi lo : Byte, n = (lenOf hi lo).toNat := by
  refine ⟨lenHi (BitVec.ofNat 16 n), lenLo (BitVec.ofNat 16 n), ?_⟩
  rw [lenOf_lenHi_lenLo, BitVec.toNat_ofNat]
  omega

/-- R49's conditions leave nothing of a frame open but its class, its id and its payload. -/
theorem eq_frameBytes_of_validFrame {f : List Byte} (h : validFrame f = true) :
    ∃ c i p, p.length ≤ 65535 ∧ f = frameBytes c i p := by
  simp only [validFrame, Bool.and_eq_true, decide_eq_true_eq, beq_iff_eq] at h
  obtain ⟨⟨⟨⟨h8, hsync1⟩, hsync2⟩, hlen⟩, hck⟩ := h
  match f, h8 with
  | s1 :: s2 :: c :: i :: lo :: hi :: rest, _ =>
    have hdecl : declaredLen (s1 :: s2 :: c :: i :: lo :: hi :: rest) = lenOf hi lo := rfl
    obtain rfl : s1 = Config.sync1 := Option.some.inj hsync1
    obtain rfl : s2 = Config.sync2 := Option.some.inj hsync2
    rw [hdecl] at hlen hck
    have hrest : rest.length = (lenOf hi lo).toNat + 2 := by
      simp only [List.length_cons] at hlen
      omega
    have hp : (rest.take (lenOf hi lo).toNat).length = (lenOf hi lo).toNat := by
      rw [List.length_take]
      omega
    have hbytes : rest.drop (lenOf hi lo).toNat =
        ckBytes (checksum ([c, i, lo, hi] ++ rest.take (lenOf hi lo).toNat)) := by
      rw [Nat.add_comm 6, Nat.add_comm 4] at hck
      exact hck
    refine ⟨c, i, rest.take (lenOf hi lo).toNat, ?_, ?_⟩
    · have := (lenOf hi lo).isLt
      omega
    · rw [frameBytes_eq hp, ← hbytes, List.append_assoc, List.take_append_drop]
      rfl

theorem validFrame_iff {f : List Byte} : validFrame f = true ↔ ∃ c i p, p.length ≤ 65535 ∧ f = frameBytes c i p := by
  constructor
  · exact eq_frameBytes_of_validFrame
  · rintro ⟨c, i, p, hp, rfl⟩
    exact validFrame_frameBytes c i hp

/-! ## The parser takes an encoded frame (R101) -/

/-- The first sync byte leads to SeekSync2 from either sync-seeking state (R85, R86). -/
theorem execParseByte_sync1 {s : State} (hst : s.rx.pState = .seekSync1 ∨ s.rx.pState = .seekSync2) :
    execParseByte Config.sync1 s = .next (setPState s .seekSync2) := by
  obtain hst | hst := hst
  · rw [execParseByte_seekSync1 _ hst, parseSeekSync1, if_pos rfl]
  · rw [execParseByte_seekSync2 _ hst, parseSeekSync2, if_neg (by decide), if_pos rfl]

/-- The state in which a frame's fields begin: the checksum is cleared (R86). -/
def frameStart (s : State) : State := { s with rx := { s.rx with pState := .readClass, pck := Acc.zero } }

/-- From either sync-seeking state the sync pair starts a frame (R85, R86). -/
theorem parseStream_syncPair {s : State} (bs : List Byte) (hst : s.rx.pState = .seekSync1 ∨ s.rx.pState = .seekSync2) :
    parseStream s (Config.sync1 :: Config.sync2 :: bs) = parseStream (frameStart s) bs := by
  have hsync2 : execParseByte Config.sync2 (setPState s .seekSync2) = .next (frameStart s) := by
    rw [execParseByte_seekSync2 _ rfl, parseSeekSync2, if_pos rfl]
    rfl
  rw [parseStream_cons_next (execParseByte_sync1 hst), parseStream_cons_next hsync2]

/-- An encoded frame that fits is the one event its last byte posts. -/
theorem parseStream_frameBytes {s : State} (c i : Byte) {p : List Byte}
    (hst : s.rx.pState = .seekSync1 ∨ s.rx.pState = .seekSync2) (hfits : p.length ≤ s.maxPayload.val) :
    ∃ t, parseStream s (frameBytes c i p) = .next t ∧ t.rx.pState = .seekSync1 ∧
      t.events = s.events ++ [.frame c i p] := by
  have hcap := s.maxPayload.isLt
  obtain ⟨hi, lo, hlen⟩ := exists_lengthBytes (n := p.length) (by omega)
  obtain ⟨u, t, hrun, hlast, hseek, hevents⟩ := frame_fields_settle (s := frameStart s) c i lo hi
    (checksum ([c, i, lo, hi] ++ p)).a (checksum ([c, i, lo, hi] ++ p)).b rfl hlen hfits
  obtain ⟨-, hparse⟩ := hrun.settles hlast
  have hframe : frameBytes c i p = Config.sync1 :: Config.sync2 ::
      ([c, i, lo, hi] ++ p ++ [(checksum ([c, i, lo, hi] ++ p)).a] ++ [(checksum ([c, i, lo, hi] ++ p)).b]) := by
    rw [frameBytes_eq hlen]
    simp [ckBytes]
  have hmatch : verdict c i p (checksum ([c, i, lo, hi] ++ p))
      ⟨(checksum ([c, i, lo, hi] ++ p)).a, (checksum ([c, i, lo, hi] ++ p)).b⟩ = .frame c i p := if_pos rfl
  refine ⟨t, ?_, hseek, ?_⟩
  · rw [hframe, parseStream_syncPair _ hst, hparse]
  · rw [← hmatch]
    exact hevents

/-- Settles O43: the conditions of R49 fix every byte but class, id and payload, and the parser's fields of a frame's
bytes are those three. -/
theorem validFramesAreTheEncodedOnes : Obligations.ValidFramesAreTheEncodedOnes := by
  unfold Obligations.ValidFramesAreTheEncodedOnes
  refine ⟨fun f => ?_, fun s f hst hvalid hfits => ?_⟩
  · simp only [validFrame_iff, encodeFrame_eq_ok_iff]
  · obtain ⟨c, i, p, hp, rfl⟩ := validFrame_iff.1 hvalid
    obtain ⟨hi, lo, hlen⟩ := exists_lengthBytes hp
    have hdecl : (declaredLen (frameBytes c i p)).toNat = p.length := by
      rw [frameBytes_eq hlen, hlen]
      rfl
    have hpayload : ((frameBytes c i p).drop 6).take p.length = p := List.take_left
    rw [hdecl] at hfits ⊢
    rw [hpayload]
    exact parseStream_frameBytes c i hst hfits

end Sys2Proof.Machine
end

section
/-! The checksum accumulator (R63 to R72): the closed form of `CkUpdate` over a sequence, the two commands of CKU as one
whole-state equation each, and what a unit's command leaves alone. -/

namespace Sys2Proof.Machine

open Sys2Proof

/-! ## `CkUpdate` as numbers modulo 256 (R64) -/

theorem Acc.update_a_toNat (x : Acc) (b : Byte) : (x.update b).a.toNat = (x.a.toNat + b.toNat) % 256 :=
  BitVec.toNat_add x.a b

theorem Acc.update_b_toNat (x : Acc) (b : Byte) :
    (x.update b).b.toNat = (x.b.toNat + (x.a.toNat + b.toNat) % 256) % 256 := by
  rw [Acc.update_b, BitVec.toNat_add, BitVec.toNat_add]

theorem Acc.update_eq_ofNat (x : Acc) (b : Byte) :
    x.update b = ⟨BitVec.ofNat 8 ((x.a.toNat + b.toNat) % 256),
      BitVec.ofNat 8 ((x.b.toNat + (x.a.toNat + b.toNat) % 256) % 256)⟩ := by
  rw [← Acc.update_b_toNat, ← Acc.update_a_toNat, BitVec.ofNat_toNat, BitVec.ofNat_toNat,
    BitVec.setWidth_eq, BitVec.setWidth_eq]

/-- A zero byte leaves CK_A and adds it to CK_B (R67). -/
theorem Acc.update_zero (x : Acc) : x.update 0#8 = ⟨x.a, x.b + x.a⟩ := by
  simp [Acc.update]

/-! ## The closed form over a sequence (R67) -/

/-- CK_A adds the bytes up. -/
theorem Acc.updateAll_a (x : Acc) (bs : List Byte) : (x.updateAll bs).a = x.a + bs.sum := by
  induction bs generalizing x with
  | nil => simp
  | cons b bs ih => rw [Acc.updateAll_cons, ih, Acc.update_a, List.sum_cons, add_assoc]

theorem checksum_a_eq_of_perm {bs cs : List Byte} (h : bs.Perm cs) : (checksum bs).a = (checksum cs).a := by
  simp only [checksum, Acc.updateAll_a, h.sum_eq]

theorem checksum_append (bs cs : List Byte) : checksum (bs ++ cs) = (checksum bs).updateAll cs :=
  Acc.updateAll_append Acc.zero bs cs

theorem Acc.updateAll_a_toNat (x : Acc) (bs : List Byte) :
    (x.updateAll bs).a.toNat =
      (x.a.toNat + ∑ i ∈ Finset.range bs.length, (bs.getD i 0#8).toNat) % 256 := by
  induction bs generalizing x with
  | nil => simp [Nat.mod_eq_of_lt x.a.isLt]
  | cons b bs ih =>
    simp only [Acc.updateAll_cons, ih, Acc.update_a_toNat, List.length_cons, Finset.sum_range_succ',
      List.getD_cons_succ, List.getD_cons_zero]
    omega

/-- CK_B adds CK_A up, so each byte counts once for itself and once for each byte after it. -/
theorem Acc.updateAll_b_toNat (x : Acc) (bs : List Byte) :
    (x.updateAll bs).b.toNat =
      (x.b.toNat + bs.length * x.a.toNat +
        ∑ i ∈ Finset.range bs.length, (bs.length - i) * (bs.getD i 0#8).toNat) % 256 := by
  induction bs generalizing x with
  | nil => simp [Nat.mod_eq_of_lt x.b.isLt]
  | cons b bs ih =>
    simp only [Acc.updateAll_cons, ih, Acc.update_a_toNat, Acc.update_b_toNat, List.length_cons,
      Finset.sum_range_succ', List.getD_cons_succ, List.getD_cons_zero, Nat.add_sub_add_right, Nat.sub_zero]
    generalize ∑ i ∈ Finset.range bs.length, (bs.length - i) * (bs.getD i 0#8).toNat = rest
    have ha : (x.a.toNat + b.toNat) % 256 ≡ x.a.toNat + b.toNat [MOD 256] := Nat.mod_modEq _ _
    calc (x.b.toNat + (x.a.toNat + b.toNat) % 256) % 256 + bs.length * ((x.a.toNat + b.toNat) % 256) + rest
      _ ≡ (x.b.toNat + (x.a.toNat + b.toNat)) + bs.length * (x.a.toNat + b.toNat) + rest [MOD 256] :=
        (((Nat.mod_modEq _ _).trans (ha.add_left _)).add (ha.mul_left _)).add_right _
      _ = x.b.toNat + (bs.length + 1) * x.a.toNat + (rest + (bs.length + 1) * b.toNat) := by ring

/-- Settles O17: the sums by induction on the bytes, from any start; the order of two bytes shows in CK_B alone. -/
theorem checksumClosedForm : Obligations.ChecksumClosedForm := by
  unfold Obligations.ChecksumClosedForm
  exact ⟨fun x s => ⟨x.updateAll_a_toNat s, x.updateAll_b_toNat s⟩, fun _ _ => checksum_a_eq_of_perm,
    ⟨[1#8, 0#8], [0#8, 1#8], .swap _ _ _, by decide⟩, Acc.update_zero, checksum_append⟩

/-! ## The commands of CKU (R69 to R71) -/

theorem exec_ckClear (s : State) : exec .ckClear s = .next { s with cku := Acc.zero } := rfl

theorem exec_ckUpdate (b : Byte) (s : State) : exec (.ckUpdate b) s = .next { s with cku := s.cku.update b } := rfl

theorem runInstrs_ckUpdate (bs : List Byte) (s : State) :
    runInstrs (bs.map .ckUpdate) s = .next { s with cku := s.cku.updateAll bs } := by
  induction bs generalizing s with
  | nil => rfl
  | cons b bs ih => rw [List.map_cons, runInstrs_cons_next (exec_ckUpdate b s), ih, Acc.updateAll_cons]

/-- Settles O18: CK_CLEAR leaves the accumulator that a checksum starts from, and the updates sum the bytes into it. -/
theorem ckuOutputsReadTheChecksum : Obligations.CkuOutputsReadTheChecksum := by
  unfold Obligations.CkuOutputsReadTheChecksum
  intro s bs
  refine ⟨{ s with cku := checksum bs }, ?_, rfl, rfl, rfl⟩
  rw [runInstrs_cons_next (exec_ckClear s), runInstrs_ckUpdate]
  rfl

/-- Bytes 0x01 from (0, 0): CK_A counts them and CK_B is 1 + 2 + … + n, both modulo 256. -/
theorem checksum_replicate_one (n : Nat) :
    (checksum (List.replicate n 1#8)).a.toNat = n % 256 ∧
    (checksum (List.replicate n 1#8)).b.toNat = (∑ i ∈ Finset.range (n + 1), i) % 256 := by
  have hbyte : ∀ i ∈ Finset.range n, ((List.replicate n 1#8).getD i 0#8).toNat = 1 := fun i hi => by
    rw [List.getD_replicate _ (Finset.mem_range.1 hi)]
    rfl
  have hflip : ∑ i ∈ Finset.range n, (n - i) * 1 = ∑ i ∈ Finset.range (n + 1), i := by
    rw [← Finset.sum_flip, Finset.sum_range_succ]
    simp
  unfold checksum
  rw [Acc.updateAll_a_toNat, Acc.updateAll_b_toNat, List.length_replicate, Finset.sum_congr rfl hbyte,
    Finset.sum_congr rfl fun i hi => congrArg ((n - i) * ·) (hbyte i hi), hflip]
  simp [Acc.zero]

/-- The corner case of R70: 256 is 0 and 256 * 257 / 2 is 0x80, modulo 256. -/
theorem checksum_replicate_256_one : checksum (List.replicate 256 1#8) = ⟨0x00#8, 0x80#8⟩ := by
  obtain ⟨ha, hb⟩ := checksum_replicate_one 256
  rw [Finset.sum_range_id] at hb
  exact Acc.eq_mk_iff.2 ⟨(BitVec.eq_of_toNat_eq ha).symm, (BitVec.eq_of_toNat_eq hb).symm⟩

/-! ## The words of CKU's commands (R52, R53) -/

/-- The word of a command whose one operand is DATA is zero in bits 59:8. -/
theorem dataWord_bits59to8 (op : BitVec 4) (b : Byte) :
    (place op 60 ||| place b 0).extractLsb' 8 52 = 0#52 := by
  simp (disch := omega) [extractLsb'_or_words, extractLsb'_place_disjoint]

/-- Of a word with OP 6 the decoder accepts only zeros there (R53, R54). -/
theorem decode_ckUpdate_bits59to8 {w : CmdWord} {i : Instr} (hop : w.extractLsb' 60 4 = 6#4) (h : decode w = .ok i) :
    w.extractLsb' 8 52 = 0#52 := by
  have hdata : onlyData w = true := onlyData_iff.2 ((decode_reservedBitsZero h).onlyData (.inr (.inr hop)))
  rw [← dataWord_eq hop hdata]
  exact dataWord_bits59to8 _ _

/-- Settles O15: the meaning is the equation; a word of this OP that decodes has no other bit set. -/
theorem ckClearClearsCku : Obligations.CkClearClearsCku := by
  unfold Obligations.CkClearClearsCku
  refine ⟨exec_ckClear, rfl, fun w hop hbody => decode_error_of_not_ok fun i hi => ?_⟩
  exact hbody ((decode_reservedBitsZero hi).onlyOp (.inl hop))

/-- Settles O16: `CkUpdate` of CKU as numbers; the 256 updates are the closed form; a word of this OP that decodes is zero
in bits 59:8. -/
theorem ckUpdateAddsToCku : Obligations.CkUpdateAddsToCku := by
  unfold Obligations.CkUpdateAddsToCku
  refine ⟨fun b s => ?_, fun s => ?_, fun s hs => ?_, fun b => ?_,
    fun w hop hbits => decode_error_of_not_ok fun i hi => hbits (decode_ckUpdate_bits59to8 hop hi)⟩
  · rw [exec_ckUpdate, Acc.update_eq_ofNat]
  · rw [exec_ckUpdate, Acc.update_zero]
  · rw [← List.map_replicate, runInstrs_ckUpdate, hs, ← checksum_replicate_256_one]
    rfl
  · simp [encode, place]

/-! ## What a command leaves alone (R11, R72) -/

/-- Settles O50: a unit's command is its result on the unit alone, put back over the rest of the state. -/
theorem commandsWriteOnlyTheirUnit : Obligations.CommandsWriteOnlyTheirUnit := by
  unfold Obligations.CommandsWriteOnlyTheirUnit
  refine ⟨fun i s t h hi => ?_, fun i s t h hi => ?_, fun i s t h hi => ?_⟩
  · obtain ⟨r, -, rfl⟩ := exec_encoder_next hi h
    exact ⟨rfl, rfl, rfl, rfl, rfl⟩
  · obtain ⟨r, -, rfl⟩ := exec_parser_next hi h
    exact ⟨rfl, rfl, rfl, rfl, rfl, rfl⟩
  · obtain ⟨r, -, rfl⟩ := exec_checksum_next hi h
    exact ⟨rfl, rfl, rfl, rfl, rfl, rfl, rfl⟩

end Sys2Proof.Machine
end

section
/-! The encoder's three commands, case by case (R76 to R78, R80, R82, R83): what each does where the encoder's state and
the request are known, the header bytes of a request as numbers, and the bytes that each sends. -/

namespace Sys2Proof.Machine

open Sys2Proof Sys2Proof.Safety

/-! ## Forward equations: each command where its case is known -/

theorem execEncBegin_of_payload {s : State} (cls id : Byte) (len : LenReq) (h : s.enc.eState = .payload) :
    execEncBegin cls id len s = .fault .encFrameOpen := by
  simp only [execEncBegin, h]

theorem execEncPoll_of_payload {s : State} (cls id : Byte) (h : s.enc.eState = .payload) :
    execEncPoll cls id s = .fault .encFrameOpen := by
  simp only [execEncPoll, h]

theorem execEncData_of_idle {s : State} (b : Byte) (h : s.enc.eState = .idle) :
    execEncData b s = .fault .encNoFrame := by
  simp only [execEncData, h]

theorem execEncBegin_tooLong {s : State} (cls id : Byte) {len : LenReq} (h : s.enc.eState = .idle)
    (hlong : reqTooLong len) : execEncBegin cls id len s = .next (postError s .invalidLength) := by
  simp only [execEncBegin, h]
  exact if_pos hlong

theorem execEncBegin_empty {s : State} (cls id : Byte) {len : LenReq} (h : s.enc.eState = .idle)
    (hshort : ¬ reqTooLong len) (hzero : reqLen len = 0#16) :
    execEncBegin cls id len s = .next (emitEmptyFrame cls id s) := by
  simp only [execEncBegin, h]
  exact (if_neg hshort).trans (if_pos hzero)

theorem execEncBegin_open {s : State} (cls id : Byte) {len : LenReq} (h : s.enc.eState = .idle)
    (hshort : ¬ reqTooLong len) (hne : reqLen len ≠ 0#16) :
    execEncBegin cls id len s = .next (openFrame cls id (reqLen len) s) := by
  simp only [execEncBegin, h]
  exact (if_neg hshort).trans (if_neg hne)

theorem execEncData_last {s : State} (b : Byte) (h : s.enc.eState = .payload)
    (hlast : s.enc.eRemaining - 1#16 = 0#16) : execEncData b s = .next (closeFrame (emitPayloadByte b s)) := by
  simp only [execEncData, h]
  exact if_pos hlast

theorem execEncData_more {s : State} (b : Byte) (h : s.enc.eState = .payload)
    (hmore : s.enc.eRemaining - 1#16 ≠ 0#16) : execEncData b s = .next (emitPayloadByte b s) := by
  simp only [execEncData, h]
  exact if_neg hmore

/-! ## What each operation sends, and that it posts nothing -/

@[simp] theorem emitEmptyFrame_tx (cls id : Byte) (s : State) :
    (emitEmptyFrame cls id s).tx = s.tx ++ frameBytes cls id [] := by
  rw [frameBytes_nil]
  rfl

@[simp] theorem openFrame_tx (cls id : Byte) (n : Half) (s : State) :
    (openFrame cls id n s).tx = s.tx ++ frameHeader cls id n := rfl
@[simp] theorem emitPayloadByte_tx (b : Byte) (s : State) : (emitPayloadByte b s).tx = s.tx ++ [b] := rfl
@[simp] theorem closeFrame_tx (s : State) : (closeFrame s).tx = s.tx ++ ckBytes s.enc.eck := rfl

@[simp] theorem emitEmptyFrame_events (cls id : Byte) (s : State) : (emitEmptyFrame cls id s).events = s.events := rfl
@[simp] theorem openFrame_events (cls id : Byte) (n : Half) (s : State) :
    (openFrame cls id n s).events = s.events := rfl
@[simp] theorem emitPayloadByte_events (b : Byte) (s : State) : (emitPayloadByte b s).events = s.events := rfl
@[simp] theorem closeFrame_events (s : State) : (closeFrame s).events = s.events := rfl

/-! ## The request as the length and its two bytes (R36, R51) -/

theorem reqTooLong_iff (len : LenReq) : reqTooLong len ↔ 65535 < len.toNat := Iff.rfl

theorem reqLen_eq_ofNat (len : LenReq) : reqLen len = BitVec.ofNat 16 len.toNat := by
  apply BitVec.eq_of_toNat_eq
  simp [reqLen]

theorem lenLo_reqLen (len : LenReq) : lenLo (reqLen len) = BitVec.ofNat 8 (len.toNat % 256) := by
  apply BitVec.eq_of_toNat_eq
  simp only [lenLo, reqLen, BitVec.extractLsb'_toNat, BitVec.toNat_ofNat, Nat.shiftRight_zero]
  omega

theorem lenHi_reqLen (len : LenReq) : lenHi (reqLen len) = BitVec.ofNat 8 (len.toNat / 256) := by
  apply BitVec.eq_of_toNat_eq
  simp only [lenHi, reqLen, BitVec.extractLsb'_toNat, BitVec.toNat_ofNat, Nat.shiftRight_eq_div_pow]
  omega

/-! ## ENC_BEGIN (R76, R82) -/

/-- From Idle an empty frame changes ECK and the TX stream only. -/
theorem emitEmptyFrame_of_idle {s : State} (cls id : Byte) (h : s.enc.eState = .idle) :
    emitEmptyFrame cls id s = { s with
      enc := { s.enc with eck := headerSum cls id 0#16 }
      tx := s.tx ++ (frameHeader cls id 0#16 ++ ckBytes (headerSum cls id 0#16)) } := by
  simp [emitEmptyFrame, emit, h]

/-- The state that the header of an opened frame leaves, its length bytes as numbers. -/
theorem openFrame_reqLen (cls id : Byte) (len : LenReq) (s : State) :
    openFrame cls id (reqLen len) s = { s with
      enc :=
        { eState := .payload, eRemaining := BitVec.ofNat 16 len.toNat
          eck := checksum [cls, id, BitVec.ofNat 8 (len.toNat % 256), BitVec.ofNat 8 (len.toNat / 256)] }
      tx := s.tx ++
        [0xB5#8, 0x62#8, cls, id, BitVec.ofNat 8 (len.toNat % 256), BitVec.ofNat 8 (len.toNat / 256)] } := by
  rw [← lenLo_reqLen, ← lenHi_reqLen, ← reqLen_eq_ofNat]
  rfl

/-- Settles O19: each case is its forward equation, the header bytes read as numbers. -/
theorem encBeginOpensAFrame : Obligations.EncBeginOpensAFrame := by
  unfold Obligations.EncBeginOpensAFrame
  intro s cls id len
  refine ⟨execEncBegin_of_payload cls id len, fun hidle hlong => execEncBegin_tooLong cls id hidle hlong,
    fun hidle hzero => ?_, fun hidle hone hle => ?_, by simp [encode, place],
    fun w hop hrsv => decode_error_of_not_ok fun i hi => hrsv ((decode_reservedBitsZero hi).encBegin hop)⟩
  · subst hzero
    have hbegin : exec (.encBegin cls id 0#32) s = .next (emitEmptyFrame cls id s) :=
      execEncBegin_empty cls id hidle (by decide) rfl
    refine ⟨hbegin.trans (execEncPoll_of_idle cls id hidle).symm, ?_⟩
    rw [hbegin, emitEmptyFrame_of_idle cls id hidle]
    rfl
  · have hshort : ¬ reqTooLong len := not_lt.2 hle
    have hne : reqLen len ≠ 0#16 := (reqLen_eq_zero hshort).not.2 (by omega)
    have hbegin : exec (.encBegin cls id len) s = .next (openFrame cls id (reqLen len) s) :=
      execEncBegin_open cls id hidle hshort hne
    rw [hbegin, openFrame_reqLen]

/-- Settles O25: the one thing that changes is the event stream, so the encoder is Idle as before. -/
theorem invalidLengthChangesNoEncoderState : Obligations.InvalidLengthChangesNoEncoderState := by
  unfold Obligations.InvalidLengthChangesNoEncoderState
  intro s cls id len hidle hlong
  have hidle' : (postError s .invalidLength).enc.eState = .idle := hidle
  exact ⟨_, execEncBegin_tooLong cls id hidle hlong, rfl, rfl, rfl, rfl, rfl,
    fun cls' id' len' => execEncBegin_of_idle cls' id' len' hidle',
    fun cls' id' => ⟨_, execEncPoll_of_idle cls' id' hidle'⟩⟩

/-! ## ENC_DATA (R77) -/

/-- A word whose one operand is DATA is zero in bits 59:8 (R53). -/
theorem bits59to8_of_onlyData {w : CmdWord} (h : onlyData w = true) : w.extractLsb' 8 52 = 0#52 := by
  rw [← dataWord_eq rfl h]
  exact dataWord_bits59to8 _ _

theorem countDown_eq_ofNat {r : Half} (h : 1 ≤ r.toNat) : r - 1#16 = BitVec.ofNat 16 (r.toNat - 1) := by
  rw [← countDown_toNat h, BitVec.ofNat_toNat, BitVec.setWidth_eq]

/-- Settles O20: each case is its forward equation, the count read as a number. -/
theorem encDataSendsAPayloadByte : Obligations.EncDataSendsAPayloadByte := by
  unfold Obligations.EncDataSendsAPayloadByte
  intro s b a' b'
  refine ⟨execEncData_of_idle b, fun hopen htwo => ?_, fun hopen hone => ?_, by simp [encode, place],
    fun w hop hbits => decode_error_of_not_ok fun i hi => hbits (bits59to8_of_onlyData
      (onlyData_iff.2 ((decode_reservedBitsZero hi).onlyData (.inl hop))))⟩
  · have hmore : s.enc.eRemaining - 1#16 ≠ 0#16 := (countDown_eq_zero (by omega)).not.2 (by omega)
    have hdata : exec (.encData b) s = .next (emitPayloadByte b s) := execEncData_more b hopen hmore
    rw [hdata, ← countDown_eq_ofNat (by omega), ← hopen]
    rfl
  · have hlast : s.enc.eRemaining - 1#16 = 0#16 := (countDown_eq_zero (by omega)).2 hone
    have hdata : exec (.encData b) s = .next (closeFrame (emitPayloadByte b s)) := execEncData_last b hopen hlast
    rw [hdata, ← hlast]
    simp [closeFrame, emitPayloadByte, emit, ckBytes, Acc.update, a', b']

/-! ## ENC_POLL (R78, R80) -/

/-- The checksum of an empty frame, its two zero length bytes included. -/
theorem headerSum_zero (cls id : Byte) :
    headerSum cls id 0#16 =
      ⟨BitVec.ofNat 8 (cls.toNat + id.toNat), BitVec.ofNat 8 (4 * cls.toNat + 3 * id.toNat)⟩ := by
  have hsum : summedHeader cls id 0#16 = [cls, id, 0#8, 0#8] := rfl
  refine Acc.eq_mk_iff.2 ⟨BitVec.eq_of_toNat_eq ?_, BitVec.eq_of_toNat_eq ?_⟩
  · rw [headerSum, hsum, Acc.updateAll_a_toNat]
    simp [Finset.sum_range_succ, Acc.zero]
  · rw [headerSum, hsum, Acc.updateAll_b_toNat]
    simp [Finset.sum_range_succ, Acc.zero]

/-- Settles O21: each case is its forward equation, the checksum by its closed form. -/
theorem encPollSendsAnEmptyFrame : Obligations.EncPollSendsAnEmptyFrame := by
  unfold Obligations.EncPollSendsAnEmptyFrame
  intro s cls id a b
  refine ⟨execEncPoll_of_payload cls id, fun hidle => ?_, by simp [encode, place],
    fun w hop hbits => decode_error_of_not_ok fun i hi => ?_⟩
  · have hpoll : exec (.encPoll cls id) s = .next (emitEmptyFrame cls id s) := execEncPoll_of_idle cls id hidle
    rw [hpoll, emitEmptyFrame_of_idle cls id hidle, headerSum_zero]
    rfl
  · have hzero := (decode_reservedBitsZero hi).encPoll hop
    simp [hzero] at hbits

/-- Settles O23: the bytes of an empty frame are those of `EncodeFrame` of the empty payload. -/
theorem pollIsTheEmptyFrame : Obligations.PollIsTheEmptyFrame := by
  unfold Obligations.PollIsTheEmptyFrame
  intro s c i hidle
  exact ⟨_, _, execEncPoll_of_idle c i hidle, encodeFrame_eq_ok_iff.2 ⟨by simp, rfl⟩, emitEmptyFrame_tx c i s⟩

/-! ## How many bytes a command sends (R83) -/

theorem execEncBegin_tx_length {cls id : Byte} {len : LenReq} {s t : State} (h : execEncBegin cls id len s = .next t) :
    t.tx.length = s.tx.length + (if 65535 < len.toNat then 0 else if len.toNat = 0 then 8 else 6) := by
  obtain ⟨-, ⟨hlong, rfl⟩ | ⟨hshort, hzero, rfl⟩ | ⟨hshort, hne, rfl⟩⟩ := execEncBegin_next h
  · rw [if_pos ((reqTooLong_iff len).1 hlong)]
    rfl
  · rw [if_neg ((reqTooLong_iff len).not.1 hshort), if_pos ((reqLen_eq_zero hshort).1 hzero)]
    simp [frameBytes_length]
  · rw [if_neg ((reqTooLong_iff len).not.1 hshort), if_neg ((reqLen_eq_zero hshort).not.1 hne)]
    simp

theorem execEncData_tx_length {b : Byte} {s t : State} (hinv : EncoderInv s) (h : execEncData b s = .next t) :
    t.tx.length = s.tx.length + (if s.enc.eRemaining.toNat = 1 then 3 else 1) := by
  obtain ⟨hopen, ⟨hlast, rfl⟩ | ⟨hmore, rfl⟩⟩ := execEncData_next h
  · rw [if_pos ((countDown_eq_zero (hinv hopen)).1 hlast)]
    simp
  · rw [if_neg ((countDown_eq_zero (hinv hopen)).not.1 hmore)]
    simp

theorem execEncPoll_tx_length {cls id : Byte} {s t : State} (h : execEncPoll cls id s = .next t) :
    t.tx.length = s.tx.length + 8 := by
  obtain ⟨-, rfl⟩ := execEncPoll_next h
  simp [frameBytes_length]

/-- Settles O26: a frame has its header, payload and checksum, and a command sends some of them or nothing. -/
theorem encoderOutputSizes : Obligations.EncoderOutputSizes := by
  unfold Obligations.EncoderOutputSizes
  refine ⟨fun c i p bs h => ?_, fun s t cls id len => execEncBegin_tx_length,
    fun s t b => execEncData_tx_length, fun s t cls id => execEncPoll_tx_length, fun i s t => exec_keeps_tx⟩
  obtain ⟨-, rfl⟩ := encodeFrame_eq_ok_iff.1 h
  exact frameBytes_length c i p

end Sys2Proof.Machine
end

section
/-! Faults (R116): a command faults exactly where it breaks the encoder's sequence, since PARSE_BYTE answers a next state
wherever the parser's invariant (R31) holds, and a step faults where its word does not decode or its command faults. -/

namespace Sys2Proof.Machine

open Sys2Proof Sys2Proof.Safety

/-! ## The encoder's faults (R76 to R78) -/

theorem execEncBegin_fault_iff {cls id : Byte} {len : LenReq} {s : State} {r : Fault} :
    execEncBegin cls id len s = .fault r ↔ r = .encFrameOpen ∧ s.enc.eState = .payload := by
  cases hst : s.enc.eState with
  | payload => simp [execEncBegin_of_payload cls id len hst, eq_comm]
  | idle =>
    obtain ⟨t, ht⟩ := execEncBegin_of_idle cls id len hst
    simp [ht]

theorem execEncPoll_fault_iff {cls id : Byte} {s : State} {r : Fault} :
    execEncPoll cls id s = .fault r ↔ r = .encFrameOpen ∧ s.enc.eState = .payload := by
  cases hst : s.enc.eState with
  | payload => simp [execEncPoll_of_payload cls id hst, eq_comm]
  | idle => simp [execEncPoll_of_idle cls id hst]

theorem execEncData_fault_iff {b : Byte} {s : State} {r : Fault} :
    execEncData b s = .fault r ↔ r = .encNoFrame ∧ s.enc.eState = .idle := by
  cases hst : s.enc.eState with
  | payload =>
    obtain ⟨t, ht⟩ := execEncData_of_payload b hst
    simp [ht]
  | idle => simp [execEncData_of_idle b hst, eq_comm]

/-! ## PARSE_BYTE takes every byte (R99) -/

/-- Under the parser's invariant the next payload byte has its place in PBUF. -/
theorem payloadIndex_lt {s : State} (hinv : ParserInv s) (hst : s.rx.pState = .readPayload) :
    payloadIndex s < s.maxPayload.val := by
  obtain ⟨-, -, hrem, hfit, -⟩ := hinv
  obtain ⟨hone, hle⟩ := hrem hst
  have hlen := hfit (by simp [inBody, hst])
  rw [payloadIndex_eq hle]
  omega

theorem execParseByte_of_parserInv {s : State} (b : Byte) (hinv : ParserInv s) : ∃ t, execParseByte b s = .next t := by
  cases hst : s.rx.pState with
  | seekSync1 => exact ⟨_, execParseByte_seekSync1 b hst⟩
  | seekSync2 => exact ⟨_, execParseByte_seekSync2 b hst⟩
  | readClass => exact ⟨_, execParseByte_readClass b hst⟩
  | readId => exact ⟨_, execParseByte_readId b hst⟩
  | readLenLo => exact ⟨_, execParseByte_readLenLo b hst⟩
  | readLenHi => exact ⟨_, execParseByte_readLenHi b hst⟩
  | readPayload => exact ⟨_, execParseByte_readPayload b hst (payloadIndex_lt hinv hst)⟩
  | readCkA => exact ⟨_, execParseByte_readCkA b hst⟩
  | readCkB =>
    obtain ⟨-, -, -, hfit, -⟩ := hinv
    by_cases hck : s.rx.pRxCka = s.rx.pck.a ∧ b = s.rx.pck.b
    · obtain ⟨ha, hb⟩ := hck
      exact ⟨_, execParseByte_readCkB_match b hst ha hb (hfit (by simp [inBody, hst]))⟩
    · exact ⟨_, execParseByte_readCkB_mismatch b hst hck⟩

/-- The commands of the other units answer a next state whatever the encoder is doing. -/
theorem exec_of_not_encoder {i : Instr} {s : State} (hi : i.isEncoder = false) (hinv : ParserInv s) :
    ∃ t, exec i s = .next t := by
  cases i with
  | parseByte b => exact execParseByte_of_parserInv b hinv
  | ckClear => exact ⟨_, rfl⟩
  | ckUpdate b => exact ⟨_, rfl⟩
  | reset => exact ⟨_, rfl⟩
  | encBegin cls id len => cases hi
  | encData b => cases hi
  | encPoll cls id => cases hi

/-! ## The faults of a command and of a step (R116) -/

theorem exec_fault_iff {i : Instr} {s : State} {r : Fault} (hinv : ParserInv s) :
    exec i s = .fault r ↔
      (r = .encFrameOpen ∧ s.enc.eState = .payload ∧
        ((∃ cls id len, i = .encBegin cls id len) ∨ ∃ cls id, i = .encPoll cls id)) ∨
      (r = .encNoFrame ∧ s.enc.eState = .idle ∧ ∃ b, i = .encData b) := by
  cases hi : i.isEncoder with
  | false =>
    obtain ⟨t, ht⟩ := exec_of_not_encoder hi hinv
    constructor
    · intro h
      cases ht.symm.trans h
    · rintro (⟨-, -, ⟨_, _, _, rfl⟩ | ⟨_, _, rfl⟩⟩ | ⟨-, -, _, rfl⟩)
      all_goals cases hi
  | true =>
    cases i with
    | encBegin cls id len => simp [exec, execEncBegin_fault_iff]
    | encData b => simp [exec, execEncData_fault_iff]
    | encPoll cls id => simp [exec, execEncPoll_fault_iff]
    | _ => cases hi

/-- A step that takes a word faults when the word does not decode, else when its command does. -/
theorem step_command_fault_iff {s : State} {w : CmdWord} {rest : List PortInput} {r : Fault} (hf : s.faulted = false)
    (hp : s.port = .command w :: rest) :
    step s = .fault r ↔
      (r = .reservedEncoding ∧ w.wf = false) ∨ ∃ i, decode w = .ok i ∧ exec i { s with port := rest } = .fault r := by
  have hwf := wf_iff_decodes w
  cases hw : decode w with
  | ok i =>
    have htrue : w.wf = true := hwf.2 ⟨i, hw⟩
    simp [step_of_command hf hp hw, htrue]
  | error e =>
    have hfalse : w.wf = false := by simpa [hw] using hwf
    simp [step_of_rejected hf hp (by simp [hw]), hfalse, eq_comm]

/-- Settles O13: the faults of a command and of a step as above, and a fault changes only the mark. -/
theorem faultsExactlyOnHostMisuse : Obligations.FaultsExactlyOnHostMisuse := by
  unfold Obligations.FaultsExactlyOnHostMisuse
  refine ⟨fun i s r hinv => exec_fault_iff hinv, fun s w rest r hf hp => step_command_fault_iff hf hp,
    fun s r h => ?_⟩
  rw [advance_of_fault h]
  exact ⟨rfl, rfl⟩

end Sys2Proof.Machine
end

section
/-! Streamed encoding (R79): the commands of one frame send `EncodeFrame`'s bytes, and commands of the other units given
between them change nothing of what the encoder does. -/

namespace Sys2Proof.Machine

open Sys2Proof Sys2Proof.Safety

/-! ## The commands of one frame, given alone -/

/-- The payload bytes owed, then the checksum, which closes the frame (R77). -/
theorem runInstrs_encData (b : Byte) (p : List Byte) {s : State} (hopen : s.enc.eState = .payload)
    (howed : s.enc.eRemaining.toNat = (b :: p).length) :
    ∃ t, runInstrs ((b :: p).map .encData) s = .next t ∧ t.enc.eState = .idle ∧ t.events = s.events ∧
      t.tx = s.tx ++ (b :: p) ++ ckBytes (s.enc.eck.updateAll (b :: p)) := by
  have hone : 1 ≤ s.enc.eRemaining.toNat := by simp [howed]
  induction p generalizing b s with
  | nil =>
    have hlast : s.enc.eRemaining - 1#16 = 0#16 := (countDown_eq_zero hone).2 howed
    have hdata : exec (.encData b) s = .next (closeFrame (emitPayloadByte b s)) := execEncData_last b hopen hlast
    exact ⟨_, runInstrs_cons_next hdata, rfl, rfl, rfl⟩
  | cons b' p ih =>
    have hmore : s.enc.eRemaining - 1#16 ≠ 0#16 := (countDown_eq_zero hone).not.2 (by simp [howed])
    have howed' : (emitPayloadByte b s).enc.eRemaining.toNat = (b' :: p).length := by
      rw [emitPayloadByte_enc, countDown_toNat hone, howed]
      rfl
    obtain ⟨t, hrun, hidle, hevents, htx⟩ := ih b' (s := emitPayloadByte b s) hopen howed' (one_le_toNat hmore)
    have hdata : exec (.encData b) s = .next (emitPayloadByte b s) := execEncData_more b hopen hmore
    exact ⟨t, (runInstrs_cons_next hdata).trans hrun, hidle, hevents, by simp [htx]⟩

/-- ENC_BEGIN and an ENC_DATA for each payload byte send the frame (R76, R77). -/
theorem runInstrs_frame (c i : Byte) {p : List Byte} {s : State} (hidle : s.enc.eState = .idle)
    (hp : p.length ≤ 65535) :
    ∃ t, runInstrs (.encBegin c i (BitVec.ofNat 32 p.length) :: p.map .encData) s = .next t ∧
      t.enc.eState = .idle ∧ t.events = s.events ∧ t.tx = s.tx ++ frameBytes c i p := by
  have hlen : (BitVec.ofNat 32 p.length).toNat = p.length := by
    rw [BitVec.toNat_ofNat]
    omega
  have hshort : ¬ reqTooLong (BitVec.ofNat 32 p.length) := by
    rw [reqTooLong_iff]
    omega
  cases p with
  | nil =>
    have hbegin : exec (.encBegin c i 0#32) s = .next (emitEmptyFrame c i s) := execEncBegin_empty c i hidle hshort rfl
    exact ⟨_, runInstrs_cons_next hbegin, rfl, rfl, emitEmptyFrame_tx c i s⟩
  | cons b p =>
    have hn : reqLen (BitVec.ofNat 32 (b :: p).length) = BitVec.ofNat 16 (b :: p).length := by
      rw [reqLen_eq_ofNat, hlen]
    have hne : reqLen (BitVec.ofNat 32 (b :: p).length) ≠ 0#16 := (reqLen_eq_zero hshort).not.2 (by rw [hlen]; simp)
    have hbegin : exec (.encBegin c i (BitVec.ofNat 32 (b :: p).length)) s = .next (openFrame c i _ s) :=
      execEncBegin_open c i hidle hshort hne
    obtain ⟨t, hrun, hidle', hevents, htx⟩ := runInstrs_encData b p
      (s := openFrame c i (reqLen (BitVec.ofNat 32 (b :: p).length)) s) rfl ((reqLen_toNat hshort).trans hlen)
    refine ⟨t, (runInstrs_cons_next hbegin).trans hrun, hidle', hevents, ?_⟩
    rw [htx, openFrame_enc, openFrame_tx, headerSum_updateAll, hn]
    simp [frameBytes]

/-! ## The encoder apart from the other units (R11) -/

@[simp] theorem parseSeekSync1_events (b : Byte) (s : State) : (parseSeekSync1 b s).events = s.events := by
  unfold parseSeekSync1
  split
  · exact setPState_events ..
  · rfl

@[simp] theorem parseSeekSync2_events (b : Byte) (s : State) : (parseSeekSync2 b s).events = s.events := by
  unfold parseSeekSync2
  split
  · rfl
  · split <;> exact setPState_events ..

/-- The length check posts nothing, or FrameTooLarge (R90). -/
theorem parseReadLenHi_events (b : Byte) (s : State) :
    (parseReadLenHi b s).events = s.events ∨ (parseReadLenHi b s).events = s.events ++ [.error .frameTooLarge] := by
  by_cases hlong : s.maxPayload.val < (setLenHi s.rx.pLen b).toNat
  · rw [parseReadLenHi_tooLarge hlong]
    exact .inr rfl
  by_cases hzero : setLenHi s.rx.pLen b = 0#16
  · rw [parseReadLenHi_zero hzero]
    exact .inl rfl
  · rw [parseReadLenHi_payload hlong hzero]
    exact .inl rfl

/-- PARSE_BYTE posts nothing, or one event of the parser (R84, R106). -/
theorem execParseByte_events {b : Byte} {s t : State} (h : execParseByte b s = .next t) :
    t.events = s.events ∨ ∃ e, t.events = s.events ++ [e] ∧ e.ofEncoder = false := by
  obtain ⟨-, rfl⟩ | ⟨-, rfl⟩ | ⟨-, rfl⟩ | ⟨-, rfl⟩ | ⟨-, rfl⟩ | ⟨-, rfl⟩ | ⟨-, -, rfl⟩ | ⟨-, rfl⟩ | ⟨-, hckB⟩ :=
    execParseByte_next h
  · exact .inl (parseSeekSync1_events b s)
  · exact .inl (parseSeekSync2_events b s)
  · exact .inl rfl
  · exact .inl rfl
  · exact .inl rfl
  · exact (parseReadLenHi_events b s).imp id fun htooLarge => ⟨_, htooLarge, rfl⟩
  · exact .inl rfl
  · exact .inl rfl
  · obtain ⟨-, -, -, rfl⟩ | ⟨-, rfl⟩ := parseReadCkB_next hckB
    · exact .inr ⟨_, rfl, rfl⟩
    · exact .inr ⟨_, rfl, rfl⟩

/-- The same encoder, the same bytes sent and the same events of the encoder posted. -/
structure EncoderAlike (s u : State) : Prop where
  enc : s.enc = u.enc
  tx : s.tx = u.tx
  events : s.events.filter Event.ofEncoder = u.events.filter Event.ofEncoder

theorem EncoderAlike.refl (s : State) : EncoderAlike s s := ⟨rfl, rfl, rfl⟩

theorem EncoderAlike.trans {s t u : State} (h : EncoderAlike s t) (h' : EncoderAlike t u) : EncoderAlike s u :=
  ⟨h.enc.trans h'.enc, h.tx.trans h'.tx, h.events.trans h'.events⟩

/-- A command of another unit does nothing of the encoder's (R11). -/
theorem encoderAlike_of_not_encoder {i : Instr} {s t : State} (hi : i.isEncoder = false) (hr : i ≠ .reset)
    (h : exec i s = .next t) : EncoderAlike t s := by
  refine ⟨exec_keeps_enc hi hr h, exec_keeps_tx hi h, ?_⟩
  cases i with
  | parseByte b =>
    obtain hquiet | ⟨e, hposted, he⟩ := execParseByte_events h
    · rw [hquiet]
    · simp [hposted, he]
  | ckClear => cases h; rfl
  | ckUpdate b => cases h; rfl
  | reset => exact absurd rfl hr
  | encBegin cls id len => cases hi
  | encData b => cases hi
  | encPoll cls id => cases hi

/-- A command of the encoder does in both states the same (R11). -/
theorem EncoderAlike.exec_encoder {i : Instr} {s u v : State} (h : EncoderAlike s u) (hi : i.isEncoder = true)
    (hv : exec i u = .next v) : ∃ t, exec i s = .next t ∧ EncoderAlike t v := by
  obtain ⟨r, hr, rfl⟩ := exec_encoder_next hi hv
  refine ⟨encOver s r, ?_, rfl, congrArg (· ++ r.tx) h.tx, ?_⟩
  · rw [exec_encoder_local hi s, h.enc, hr, mapNext_next]
  · simp only [encOver, List.filter_append, h.events]

/-- What the encoder does rests on its own commands: commands of the other units between them change nothing of it. -/
theorem EncoderAlike.runInstrs_filter {cmds : List Instr} {s u v : State} (h : EncoderAlike s u) (hinv : ParserInv s)
    (hr : ∀ x ∈ cmds, x ≠ .reset) (hv : runInstrs (cmds.filter Instr.isEncoder) u = .next v) :
    ∃ t, runInstrs cmds s = .next t ∧ EncoderAlike t v := by
  induction cmds generalizing s u with
  | nil => cases hv; exact ⟨s, rfl, h⟩
  | cons i is ih =>
    have hrest : ∀ x ∈ is, x ≠ .reset := fun x hx => hr x (List.mem_cons_of_mem _ hx)
    cases hi : i.isEncoder with
    | true =>
      rw [List.filter_cons_of_pos hi] at hv
      obtain ⟨u', hu', hv⟩ := runInstrs_cons_inv hv
      obtain ⟨s', hs', halike⟩ := h.exec_encoder hi hu'
      rw [runInstrs_cons_next hs']
      exact ih halike (exec_keeps_ParserInv hinv hs') hrest hv
    | false =>
      rw [List.filter_cons_of_neg (by simp [hi])] at hv
      obtain ⟨s', hs'⟩ := exec_of_not_encoder hi hinv
      have halike := (encoderAlike_of_not_encoder hi (hr i List.mem_cons_self) hs').trans h
      rw [runInstrs_cons_next hs']
      exact ih halike (exec_keeps_ParserInv hinv hs') hrest hv

/-! ## What the events of a run show -/

theorem runInstrs_events_grow {cmds : List Instr} {s t : State} (h : runInstrs cmds s = .next t) :
    s.events <+: t.events := by
  induction cmds generalizing s with
  | nil => cases h; exact List.prefix_refl _
  | cons i is ih =>
    obtain ⟨u, hexec, hrest⟩ := runInstrs_cons_inv h
    exact (exec_outputs_grow hexec).2.trans (ih hrest)

/-- Streams that hold the same events of the encoder: those appended are none of them. -/
theorem posted_not_ofEncoder {es fs : List Event} (hgrow : es <+: fs)
    (hsame : fs.filter Event.ofEncoder = es.filter Event.ofEncoder) :
    ∃ posted, fs = es ++ posted ∧ ∀ e ∈ posted, e.ofEncoder = false := by
  obtain ⟨posted, rfl⟩ := hgrow
  refine ⟨posted, rfl, ?_⟩
  simpa using hsame

/-- Settles O22: the encoder's commands alone send the frame, and those of the other units change nothing of that; too
long a payload is an error of both. -/
theorem streamedEncodingIsEncodeFrame : Obligations.StreamedEncodingIsEncodeFrame := by
  unfold Obligations.StreamedEncodingIsEncodeFrame
  refine ⟨fun s c i p cmds hidle hinv hp hr hcmds => ?_, fun s c i p hidle hlong hfits => ⟨if_pos hlong, ?_⟩⟩
  · obtain ⟨v, hv, hvidle, hvevents, hvtx⟩ := runInstrs_frame c i hidle hp
    rw [← hcmds] at hv
    obtain ⟨t, ht, henc, htx, hevents⟩ := (EncoderAlike.refl s).runInstrs_filter hinv hr hv
    rw [hvevents] at hevents
    exact ⟨t, _, ht, encodeFrame_eq_ok_iff.2 ⟨hp, rfl⟩, henc ▸ hvidle, htx.trans hvtx,
      posted_not_ofEncoder (runInstrs_events_grow ht) hevents⟩
  · have hreq : reqTooLong (BitVec.ofNat 32 p.length) := by
      rw [reqTooLong_iff, BitVec.toNat_ofNat]
      omega
    exact execEncBegin_tooLong c i hidle hreq

end Sys2Proof.Machine
end

section
/-! Parsing an encoded frame (R101): where its one event is posted, at the last byte when the payload fits and at the
sixth when it does not. -/

namespace Sys2Proof.Machine

open Sys2Proof

/-- A frame's bytes but the last, CK_B (R44). -/
theorem dropLast_frameBytes {c i lo hi : Byte} {p : List Byte} (hlen : p.length = (lenOf hi lo).toNat) :
    (frameBytes c i p).dropLast =
      Config.sync1 :: Config.sync2 :: ([c, i, lo, hi] ++ p ++ [(checksum ([c, i, lo, hi] ++ p)).a]) := by
  have hsplit : frameBytes c i p = Config.sync1 :: Config.sync2 ::
      ([c, i, lo, hi] ++ p ++ [(checksum ([c, i, lo, hi] ++ p)).a]) ++ [(checksum ([c, i, lo, hi] ++ p)).b] := by
    rw [frameBytes_eq hlen]
    simp [ckBytes]
  rw [hsplit, List.dropLast_concat]

/-- Before the last byte of a frame that fits the parser has posted nothing and is inside the frame. -/
theorem parseStream_dropLast_frameBytes {s : State} (c i : Byte) {p : List Byte}
    (hst : s.rx.pState = .seekSync1 ∨ s.rx.pState = .seekSync2) (hfits : p.length ≤ s.maxPayload.val) :
    ∃ u, parseStream s (frameBytes c i p).dropLast = .next u ∧ InFrame s.events u := by
  have hcap := s.maxPayload.isLt
  obtain ⟨hi, lo, hlen⟩ := exists_lengthBytes (n := p.length) (by omega)
  obtain ⟨u, -, hrun, -⟩ := frame_fields_settle (s := frameStart s) c i lo hi
    (checksum ([c, i, lo, hi] ++ p)).a 0#8 rfl hlen hfits
  refine ⟨u, ?_, hrun.inFrame_end⟩
  rw [dropLast_frameBytes hlen, parseStream_syncPair _ hst, hrun.parse]

/-- Of a frame that does not fit the first five bytes post nothing and the sixth posts FrameTooLarge (R90). -/
theorem parseStream_frameBytes_tooLarge {s : State} (c i : Byte) {p : List Byte}
    (hst : s.rx.pState = .seekSync1 ∨ s.rx.pState = .seekSync2) (hlong : s.maxPayload.val < p.length)
    (hp : p.length ≤ 65535) :
    (∃ u, parseStream s ((frameBytes c i p).take 5) = .next u ∧ InFrame s.events u) ∧
    ∃ t, parseStream s ((frameBytes c i p).take 6) = .next t ∧ t.rx.pState = .seekSync1 ∧
      t.events = s.events ++ [.error .frameTooLarge] := by
  obtain ⟨hi, lo, hlen⟩ := exists_lengthBytes hp
  have htake5 : (frameBytes c i p).take 5 = Config.sync1 :: Config.sync2 :: [c, i, lo] := by
    rw [frameBytes_eq hlen]
    rfl
  have htake6 : (frameBytes c i p).take 6 = Config.sync1 :: Config.sync2 :: ([c, i, lo] ++ [hi]) := by
    rw [frameBytes_eq hlen]
    rfl
  have hheader := fieldRun_header (s := frameStart s) c i lo rfl
  obtain ⟨t, hlast, hseek, hevents⟩ := long_header_rejected (s := frameStart s) c i lo hi (hlen ▸ hlong)
  obtain ⟨-, hparse⟩ := hheader.settles hlast
  rw [htake5, htake6, parseStream_syncPair _ hst, parseStream_syncPair _ hst]
  exact ⟨⟨_, hheader.parse, hheader.inFrame_end⟩, t, hparse, hseek, hevents⟩

/-- Settles O39: after the sync pair the bytes are fields up to the one that settles the frame or rejects its length. -/
theorem parseOfEncodedFrameIsTheFrame : Obligations.ParseOfEncodedFrameIsTheFrame := by
  unfold Obligations.ParseOfEncodedFrameIsTheFrame
  refine ⟨fun s c i p f hst hfits hf => ?_, fun s c i p f hst hlong hf => ?_⟩
  · obtain ⟨-, rfl⟩ := encodeFrame_eq_ok_iff.1 hf
    obtain ⟨u, hu, hframe⟩ := parseStream_dropLast_frameBytes c i hst hfits
    obtain ⟨t, ht, hseek, hevents⟩ := parseStream_frameBytes c i hst hfits
    exact ⟨⟨u, hu, hframe.events⟩, t, ht, hevents, hseek⟩
  · obtain ⟨hp, rfl⟩ := encodeFrame_eq_ok_iff.1 hf
    obtain ⟨⟨u, hu, hframe⟩, t, ht, hseek, hevents⟩ := parseStream_frameBytes_tooLarge c i hst hlong hp
    exact ⟨⟨u, hu, hframe.events⟩, t, ht, hevents, hseek⟩

end Sys2Proof.Machine
end

section
/-! PARSE_BYTE one state of the parser at a time (R85 to R94), each a whole-state equation, and what the class and the id
held do to it (R97). -/

namespace Sys2Proof.Machine

open Sys2Proof Sys2Proof.Safety

theorem exec_parseByte (b : Byte) (s : State) : exec (.parseByte b) s = execParseByte b s := rfl

/-! ## The sync pair (R85, R86) -/

/-- Settles O27: the parser's first arm, as it stands. -/
theorem seekSync1WaitsForB5 : Obligations.SeekSync1WaitsForB5 := by
  unfold Obligations.SeekSync1WaitsForB5
  intro s b hst
  exact execParseByte_seekSync1 b hst

theorem setPState_self {s : State} {v : ParserState} (hst : s.rx.pState = v) : setPState s v = s := by
  subst hst
  rfl

/-- Settles O28: 0xB5 writes the state the parser is in, and of the stream B5 B5 62 the last two bytes are the pair. -/
theorem seekSync2WaitsFor62 : Obligations.SeekSync2WaitsFor62 := by
  unfold Obligations.SeekSync2WaitsFor62
  refine ⟨fun s b hst => ?_, fun s hst => ?_⟩
  · have hstay : setPState s .seekSync2 = s := setPState_self hst
    rw [exec_parseByte, execParseByte_seekSync2 b hst, parseSeekSync2, hstay]
    rfl
  · have hfirst : execParseByte 0xB5#8 s = .next (setPState s .seekSync2) := execParseByte_sync1 (.inl hst)
    rw [parseStream_cons_next hfirst]
    exact parseStream_syncPair [] (.inr rfl)

/-! ## The header (R87 to R90) -/

/-- Settles O29: both arms store the byte and sum it. -/
theorem classAndIdBytesAreTaken : Obligations.ClassAndIdBytesAreTaken := by
  unfold Obligations.ClassAndIdBytesAreTaken
  exact fun s b => ⟨execParseByte_readClass b, execParseByte_readId b⟩

theorem lenLo_toNat (n : Half) : (lenLo n).toNat = n.toNat % 256 := by
  simp [lenLo]

theorem lenHi_toNat (n : Half) : (lenHi n).toNat = n.toNat / 256 := by
  have := n.isLt
  simp only [lenHi, BitVec.extractLsb'_toNat, Nat.shiftRight_eq_div_pow]
  omega

/-- The low byte replaced, as a number (R89). -/
theorem setLenLo_toNat (n : Half) (b : Byte) : (setLenLo n b).toNat = n.toNat / 256 * 256 + b.toNat := by
  rw [setLenLo, lenOf_toNat, lenHi_toNat]

/-- The high byte replaced, as a number (R90). -/
theorem setLenHi_toNat (n : Half) (b : Byte) : (setLenHi n b).toNat = b.toNat * 256 + n.toNat % 256 := by
  rw [setLenHi, lenOf_toNat, lenLo_toNat]

/-- Settles O30: the length written as its number. -/
theorem lengthLowByteIsTaken : Obligations.LengthLowByteIsTaken := by
  unfold Obligations.LengthLowByteIsTaken
  intro s b hst
  rw [← setLenLo_toNat, BitVec.ofNat_toNat, BitVec.setWidth_eq]
  exact execParseByte_readLenLo b hst

/-- Settles O31: the three outcomes of the length check, the length written as its number. -/
theorem lengthHighByteIsChecked : Obligations.LengthHighByteIsChecked := by
  unfold Obligations.LengthHighByteIsChecked
  intro s b hst
  simp only [← setLenHi_toNat, BitVec.ofNat_toNat, BitVec.setWidth_eq]
  rw [exec_parseByte, execParseByte_readLenHi b hst]
  by_cases hlong : s.maxPayload.val < (setLenHi s.rx.pLen b).toNat
  · rw [parseReadLenHi_tooLarge hlong, if_pos hlong]
    rfl
  rw [if_neg hlong]
  by_cases hzero : setLenHi s.rx.pLen b = 0#16
  · rw [parseReadLenHi_zero hzero, hzero]
    rfl
  · have hne : (setLenHi s.rx.pLen b).toNat ≠ 0 := Nat.ne_zero_of_lt (one_le_toNat hzero)
    rw [parseReadLenHi_payload hlong hzero, if_neg hne]
    rfl

/-! ## The payload and the checksum (R91 to R94) -/

/-- Settles O32: the counters in order make the index a difference of numbers, and the new buffer is one write. -/
theorem payloadByteIsStored : Obligations.PayloadByteIsStored := by
  unfold Obligations.PayloadByteIsStored
  intro s b hst hone hle hfits
  have hindex : payloadIndex s = s.rx.pLen.toNat - s.rx.pRemaining.toNat := payloadIndex_eq hle
  have hlast : (if s.rx.pRemaining.toNat = 1 then ParserState.readCkA else .readPayload) =
      if s.rx.pRemaining - 1#16 = 0#16 then .readCkA else .readPayload := by simp only [countDown_eq_zero hone]
  refine ⟨s.rx.pbuf.write (payloadIndex s) b, ?_, ?_, fun a ha => ?_⟩
  · rw [hlast, ← countDown_eq_ofNat hone]
    exact execParseByte_readPayload b hst (by omega)
  · rw [← hindex, Memory.read_write_same]
  · rw [← hindex] at ha
    exact Memory.read_write_ne _ b ha

/-- Settles O33: the arm only keeps the byte. -/
theorem ckAByteIsKept : Obligations.CkAByteIsKept := by
  unfold Obligations.CkAByteIsKept
  exact fun s b hst => execParseByte_readCkA b hst

/-- A buffer that holds a payload of `p_len` bytes gives it back (R94). -/
theorem framePayload_of_stored {s : State} {p : List Byte} (hlen : p.length = s.rx.pLen.toNat)
    (hstored : ∀ k < p.length, s.rx.pbuf.read k = p[k]?) : framePayload s = p := by
  rw [framePayload, ← hlen]
  refine List.ext_getElem (by simp) fun k _ hk => ?_
  have hread : s.rx.pbuf.read k = some p[k] := (hstored k hk).trans (List.getElem?_eq_getElem hk)
  simpa using memRead_of_read hread

/-- Settles O34: both received bytes are compared together, and the payload posted is the one PBUF holds. -/
theorem ckBByteSettlesTheFrame : Obligations.CkBByteSettlesTheFrame := by
  unfold Obligations.CkBByteSettlesTheFrame
  refine ⟨fun s b p hst hfits hlen hstored ha hb => ?_, fun s b hst hne => ?_⟩
  · rw [exec_parseByte, execParseByte_readCkB_match b hst ha hb hfits, framePayload_of_stored hlen hstored]
    rfl
  · exact execParseByte_readCkB_mismatch b hst (not_and_or.2 hne)

/-! ## The class and the id held (R97) -/

/-- The state with another class and id held. -/
def withClassId (c i : Byte) (s : State) : State := { s with rx := { s.rx with pClass := c, pId := i } }

theorem parseSeekSync1_withClassId (b c i : Byte) (s : State) :
    parseSeekSync1 b (withClassId c i s) = withClassId c i (parseSeekSync1 b s) := by
  unfold parseSeekSync1
  split
  · rfl
  · rfl

theorem parseSeekSync2_withClassId (b c i : Byte) (s : State) :
    parseSeekSync2 b (withClassId c i s) = withClassId c i (parseSeekSync2 b s) := by
  unfold parseSeekSync2
  split
  · rfl
  · split
    · rfl
    · rfl

theorem parseReadLenHi_withClassId (b c i : Byte) (s : State) :
    parseReadLenHi b (withClassId c i s) = withClassId c i (parseReadLenHi b s) := by
  by_cases hlong : s.maxPayload.val < (setLenHi s.rx.pLen b).toNat
  · rw [parseReadLenHi_tooLarge hlong, parseReadLenHi_tooLarge (s := withClassId c i s) hlong]
    rfl
  by_cases hzero : setLenHi s.rx.pLen b = 0#16
  · rw [parseReadLenHi_zero hzero, parseReadLenHi_zero (s := withClassId c i s) hzero]
    rfl
  · rw [parseReadLenHi_payload hlong hzero, parseReadLenHi_payload (s := withClassId c i s) hlong hzero]
    rfl

/-- Where PARSE_BYTE posts no frame, it does the same with any class and id held: ReadClass and ReadId replace one of
them, and every other arm leaves both alone (R97). -/
theorem execParseByte_withClassId {b : Byte} {s t : State} (c i : Byte) (h : execParseByte b s = .next t)
    (hnoFrame : ∀ p, t.events ≠ s.events ++ [.frame s.rx.pClass s.rx.pId p]) :
    ∃ c' i', execParseByte b (withClassId c i s) = .next (withClassId c' i' t) := by
  obtain ⟨hst, rfl⟩ | ⟨hst, rfl⟩ | ⟨hst, rfl⟩ | ⟨hst, rfl⟩ | ⟨hst, rfl⟩ | ⟨hst, rfl⟩ | ⟨hst, hx, rfl⟩ | ⟨hst, rfl⟩ |
    ⟨hst, hckB⟩ := execParseByte_next h
  · exact ⟨c, i, parseSeekSync1_withClassId b c i s ▸ execParseByte_seekSync1 b hst⟩
  · exact ⟨c, i, parseSeekSync2_withClassId b c i s ▸ execParseByte_seekSync2 b hst⟩
  · exact ⟨b, i, execParseByte_readClass b hst⟩
  · exact ⟨c, b, execParseByte_readId b hst⟩
  · exact ⟨c, i, execParseByte_readLenLo b hst⟩
  · exact ⟨c, i, parseReadLenHi_withClassId b c i s ▸ execParseByte_readLenHi b hst⟩
  · exact ⟨c, i, execParseByte_readPayload b hst hx⟩
  · exact ⟨c, i, execParseByte_readCkA b hst⟩
  · obtain ⟨-, -, -, rfl⟩ | ⟨hck, rfl⟩ := parseReadCkB_next hckB
    · exact absurd rfl (hnoFrame (framePayload s))
    · exact ⟨c, i, execParseByte_readCkB_mismatch b hst hck⟩

/-- PARSE_BYTE posts nothing, or an error, which returns the parser to SeekSync1, or the frame that its last byte
completes (R84, R90, R93). -/
theorem execParseByte_posts {b : Byte} {s t : State} (h : execParseByte b s = .next t) :
    t.events = s.events ∨
    (∃ e, t.events = s.events ++ [.error e] ∧ t.rx.pState = .seekSync1) ∨
    (s.rx.pState = .readCkB ∧ s.rx.pRxCka = s.rx.pck.a ∧ b = s.rx.pck.b ∧ s.rx.pLen.toNat ≤ s.maxPayload.val ∧
      t = setPState (post s (.frame s.rx.pClass s.rx.pId (framePayload s))) .seekSync1) := by
  obtain ⟨-, rfl⟩ | ⟨-, rfl⟩ | ⟨-, rfl⟩ | ⟨-, rfl⟩ | ⟨-, rfl⟩ | ⟨-, rfl⟩ | ⟨-, -, rfl⟩ | ⟨-, rfl⟩ | ⟨hst, hckB⟩ :=
    execParseByte_next h
  · exact .inl (parseSeekSync1_events b s)
  · exact .inl (parseSeekSync2_events b s)
  · exact .inl rfl
  · exact .inl rfl
  · exact .inl rfl
  · by_cases hlong : s.maxPayload.val < (setLenHi s.rx.pLen b).toNat
    · rw [parseReadLenHi_tooLarge hlong]
      exact .inr (.inl ⟨_, rfl, rfl⟩)
    by_cases hzero : setLenHi s.rx.pLen b = 0#16
    · rw [parseReadLenHi_zero hzero]
      exact .inl rfl
    · rw [parseReadLenHi_payload hlong hzero]
      exact .inl rfl
  · exact .inl rfl
  · exact .inl rfl
  · obtain ⟨ha, hb, hfits, rfl⟩ | ⟨-, rfl⟩ := parseReadCkB_next hckB
    · exact .inr (.inr ⟨hst, ha, hb, hfits, rfl⟩)
    · exact .inr (.inl ⟨_, rfl, rfl⟩)

/-- Settles O35: the class and the id are read where a frame is posted and nowhere else, and there only copied. -/
theorem classAndIdNeverSteerTheParser : Obligations.ClassAndIdNeverSteerTheParser := by
  unfold Obligations.ClassAndIdNeverSteerTheParser
  intro s t b c i h
  obtain hquiet | ⟨e, herror, -⟩ | ⟨hst, ha, hb, hfits, rfl⟩ := execParseByte_posts h
  · obtain ⟨c', i', hu⟩ := execParseByte_withClassId c i h (by simp [hquiet])
    exact ⟨_, hu, rfl, rfl, rfl, rfl, rfl, rfl, .inl ⟨hquiet, hquiet⟩⟩
  · obtain ⟨c', i', hu⟩ := execParseByte_withClassId c i h (by simp [herror])
    exact ⟨_, hu, rfl, rfl, rfl, rfl, rfl, rfl, .inr (.inl ⟨e, herror, herror⟩)⟩
  · have hu := execParseByte_readCkB_match (s := withClassId c i s) b hst ha hb hfits
    exact ⟨_, hu, rfl, rfl, rfl, rfl, rfl, rfl, .inr (.inr ⟨framePayload s, rfl, rfl⟩)⟩

end Sys2Proof.Machine
end

section
/-! The parser over streams (R95 to R104): it is never stuck and stores no more than PBUF holds, the cutting of a stream
into chunks does not matter, and noise before a frame or a corrupted frame does not hide the next one. -/

namespace Sys2Proof.Machine

open Sys2Proof Sys2Proof.Safety

/-! ## Back to the search (R99) -/

/-- The most bytes the frame being received can still take, the parser's invariant given; 0 outside a frame. -/
def bytesLeft (s : State) : Nat :=
  match s.rx.pState with
  | .seekSync1 => 0
  | .seekSync2 => 0
  | .readClass => 6 + s.maxPayload.val
  | .readId => 5 + s.maxPayload.val
  | .readLenLo => 4 + s.maxPayload.val
  | .readLenHi => 3 + s.maxPayload.val
  | .readPayload => 2 + s.rx.pRemaining.toNat
  | .readCkA => 2
  | .readCkB => 1

theorem bytesLeft_pos {s : State} (h1 : s.rx.pState ≠ .seekSync1) (h2 : s.rx.pState ≠ .seekSync2) :
    0 < bytesLeft s := by
  cases hst : s.rx.pState <;> simp [bytesLeft, hst] at h1 h2 ⊢

theorem bytesLeft_le {s : State} (hinv : ParserInv s) : bytesLeft s ≤ 6 + s.maxPayload.val := by
  obtain ⟨-, -, hrem, hfit, -⟩ := hinv
  cases hst : s.rx.pState with
  | readPayload =>
    obtain ⟨-, hle⟩ := hrem hst
    have hlen := hfit (by simp [inBody, hst])
    simp only [bytesLeft, hst]
    omega
  | _ => simp only [bytesLeft, hst]; omega

/-- The length check opens a payload of at most MAX_PAYLOAD bytes, or ends the frame (R90). -/
theorem parseReadLenHi_bytesLeft (b : Byte) (s : State) :
    (parseReadLenHi b s).rx.pState = .seekSync1 ∨
    (0 < bytesLeft (parseReadLenHi b s) ∧ bytesLeft (parseReadLenHi b s) ≤ 2 + s.maxPayload.val) := by
  by_cases hlong : s.maxPayload.val < (setLenHi s.rx.pLen b).toNat
  · rw [parseReadLenHi_tooLarge hlong]
    exact .inl rfl
  by_cases hzero : setLenHi s.rx.pLen b = 0#16
  · rw [parseReadLenHi_zero hzero]
    exact .inr (by simp [bytesLeft])
  · rw [parseReadLenHi_payload hlong hzero]
    exact .inr (by simp only [bytesLeft]; omega)

/-- A payload byte leaves one fewer to come (R91). -/
theorem storePayloadByte_bytesLeft {s : State} (b : Byte) (hone : 1 ≤ s.rx.pRemaining.toNat) :
    bytesLeft (storePayloadByte b s) = 1 + s.rx.pRemaining.toNat := by
  have hcount := countDown_toNat hone
  have hlast := countDown_eq_zero hone
  by_cases hr : s.rx.pRemaining - 1#16 = 0#16
  · have hrem : s.rx.pRemaining.toNat = 1 := hlast.1 hr
    simp only [bytesLeft, storePayloadByte_pState, if_pos hr]
    omega
  · simp only [bytesLeft, storePayloadByte_pState, if_neg hr, storePayloadByte_pRemaining, hcount]
    omega

/-- Inside a frame each byte ends it or leaves fewer to come. -/
theorem execParseByte_bytesLeft {b : Byte} {s t : State} (hinv : ParserInv s) (hin : 0 < bytesLeft s)
    (h : execParseByte b s = .next t) :
    t.rx.pState = .seekSync1 ∨ (0 < bytesLeft t ∧ bytesLeft t < bytesLeft s) := by
  obtain ⟨hst, -⟩ | ⟨hst, -⟩ | ⟨hst, rfl⟩ | ⟨hst, rfl⟩ | ⟨hst, rfl⟩ | ⟨hst, rfl⟩ | ⟨hst, -, rfl⟩ | ⟨hst, rfl⟩ |
    ⟨-, hckB⟩ := execParseByte_next h
  · simp [bytesLeft, hst] at hin
  · simp [bytesLeft, hst] at hin
  · exact .inr (by simp [bytesLeft, hst, parseReadClass])
  · exact .inr (by simp [bytesLeft, hst, parseReadId])
  · exact .inr (by simp [bytesLeft, hst, parseReadLenLo])
  · have hleft : bytesLeft s = 3 + s.maxPayload.val := by simp only [bytesLeft, hst]
    exact (parseReadLenHi_bytesLeft b s).imp id fun ⟨hpos, hle⟩ => ⟨hpos, by omega⟩
  · obtain ⟨-, -, hrem, -, -⟩ := hinv
    obtain ⟨hone, -⟩ := hrem hst
    have hleft : bytesLeft s = 2 + s.rx.pRemaining.toNat := by simp only [bytesLeft, hst]
    exact .inr (by rw [storePayloadByte_bytesLeft b hone]; omega)
  · exact .inr (by simp [bytesLeft, hst, parseReadCkA])
  · obtain ⟨-, -, -, rfl⟩ | ⟨-, rfl⟩ := parseReadCkB_next hckB
    · exact .inl rfl
    · exact .inl rfl

/-- Given as many bytes as the frame can still take, the parser is back in SeekSync1 after some of them. -/
theorem parseStream_returns_to_seek {bs : List Byte} {s : State} (hinv : ParserInv s) (hin : 0 < bytesLeft s)
    (henough : bytesLeft s ≤ bs.length) :
    ∃ k t, k ≤ bs.length ∧ parseStream s (bs.take k) = .next t ∧ t.rx.pState = .seekSync1 := by
  induction bs generalizing s with
  | nil => exact absurd henough (Nat.not_le.2 hin)
  | cons b bs ih =>
    obtain ⟨u, hu⟩ := execParseByte_of_parserInv b hinv
    obtain hseek | ⟨hin', hless⟩ := execParseByte_bytesLeft hinv hin hu
    · exact ⟨1, u, by simp, parseStream_cons_next hu, hseek⟩
    · rw [List.length_cons] at henough
      obtain ⟨k, t, hk, ht, hseek⟩ := ih (execParseByte_keeps_ParserInv hinv hu) hin' (by omega)
      exact ⟨k + 1, t, Nat.succ_le_succ hk, (parseStream_cons_next hu).trans ht, hseek⟩

/-- Settles O37: the invariant gives every payload byte its place, an error ends the frame, and the count of bytes to
come falls with every byte of a frame. -/
theorem parserIsNeverStuck : Obligations.ParserIsNeverStuck := by
  unfold Obligations.ParserIsNeverStuck
  refine ⟨fun s b hinv => execParseByte_of_parserInv b hinv, fun s t b e h hevents => ?_,
    fun s bs hinv h1 h2 hlen => ?_⟩
  · obtain hquiet | ⟨-, -, hseek⟩ | ⟨-, -, -, -, rfl⟩ := execParseByte_posts h
    · simp [hquiet] at hevents
    · exact hseek
    · rfl
  · exact parseStream_returns_to_seek hinv (bytesLeft_pos h1 h2) (hlen ▸ bytesLeft_le hinv)

/-! ## Bounded buffering (R100) -/

/-- Distinct addresses below the capacity are no more than the capacity. -/
theorem Memory.length_le_of_within {m : Memory} {cap : Nat} (hwf : m.wf) (hin : m.within cap) : m.length ≤ cap := by
  have hnodup : (m.map Prod.fst).Nodup := (List.pairwise_map.2 hwf).imp Nat.ne_of_lt
  have hsub : m.map Prod.fst ⊆ List.range cap := by
    intro a ha
    obtain ⟨x, hx, rfl⟩ := List.mem_map.1 ha
    exact List.mem_range.2 (hin x hx)
  simpa using (List.subperm_of_subset hnodup hsub).length_le

/-- Both length bytes at 0xFF are the longest length. -/
theorem setLenHi_longest {n : Half} (hlo : n.toNat % 256 = 0xFF) : setLenHi n 0xFF#8 = 65535#16 := by
  apply BitVec.eq_of_toNat_eq
  rw [setLenHi_toNat, hlo]
  rfl

/-- Settles O38: PBUF's addresses are distinct and below MAX_PAYLOAD, and only a MAX_PAYLOAD of 65535 takes the length
0xFFFF. -/
theorem bufferingIsBounded : Obligations.BufferingIsBounded := by
  unfold Obligations.BufferingIsBounded
  refine ⟨fun s hinv => ?_, fun s hst hlo hcap => ?_, fun s hst hlo hcap => ?_⟩
  · obtain ⟨hwf, hin, -⟩ := hinv
    exact Memory.length_le_of_within hwf hin
  · have hlen := setLenHi_longest hlo
    refine ⟨_, execParseByte_readLenHi _ hst, ?_⟩
    rw [parseReadLenHi_tooLarge (by rw [hlen]; exact hcap)]
    exact ⟨rfl, rfl, rfl⟩
  · have hlen := setLenHi_longest hlo
    refine ⟨_, execParseByte_readLenHi _ hst, ?_⟩
    rw [parseReadLenHi_payload (by simp [hlen, hcap]) (by simp [hlen])]
    exact ⟨rfl, rfl, hlen⟩

/-! ## Chunks (R102) -/

/-- A sequence that stops goes no further, whatever follows (R117). -/
theorem runInstrs_append_of_stops {is : List Instr} {s : State} (js : List Instr)
    (hstops : ∀ t, runInstrs is s ≠ .next t) : runInstrs (is ++ js) s = runInstrs is s := by
  induction is generalizing s with
  | nil => exact absurd rfl (hstops s)
  | cons i is ih =>
    simp only [List.cons_append, runInstrs] at hstops ⊢
    cases hexec : exec i s with
    | next u => exact ih (by simpa only [hexec] using hstops)
    | fault r => rfl
    | refused r => rfl

theorem parseStream_append_of_stops {bs : List Byte} {s : State} (cs : List Byte)
    (hstops : ∀ t, parseStream s bs ≠ .next t) : parseStream s (bs ++ cs) = parseStream s bs := by
  unfold parseStream at hstops ⊢
  rw [List.map_append]
  exact runInstrs_append_of_stops _ hstops

theorem parseChunks_eq_parseStream (chunks : List (List Byte)) (s : State) :
    parseChunks chunks s = parseStream s chunks.flatten := by
  induction chunks generalizing s with
  | nil => rfl
  | cons c cs ih =>
    rw [List.flatten_cons]
    cases hc : parseStream s c with
    | next t => rw [parseChunks_cons_next hc, parseStream_append_next hc, ih t]
    | fault r => rw [parseStream_append_of_stops _ (by simp [hc]), hc, parseChunks, hc]
    | refused r => rw [parseStream_append_of_stops _ (by simp [hc]), hc, parseChunks, hc]

/-- Settles O40: chunks are the stream they make up, and an encoded frame as a stream is that frame. -/
theorem chunksDoNotMatter : Obligations.ChunksDoNotMatter := by
  unfold Obligations.ChunksDoNotMatter
  refine ⟨parseChunks_eq_parseStream, fun s c i p f chunks hst hfits hf hchunks => ?_⟩
  obtain ⟨-, rfl⟩ := encodeFrame_eq_ok_iff.1 hf
  obtain ⟨t, ht, hseek, hevents⟩ := parseStream_frameBytes c i hst hfits
  exact ⟨t, by rw [parseChunks_eq_parseStream, hchunks, ht], hevents, hseek⟩

/-! ## Noise (R103) -/

theorem runInstrs_keeps_maxPayload {cmds : List Instr} {s t : State} (h : runInstrs cmds s = .next t) :
    t.maxPayload = s.maxPayload := by
  induction cmds generalizing s with
  | nil => cases h; rfl
  | cons i is ih =>
    obtain ⟨u, hexec, hrest⟩ := runInstrs_cons_inv h
    exact (ih hrest).trans (exec_keeps_maxPayload hexec)

/-- The parser seeks a sync byte, and the bytes to come hold no sync pair, one begun already included. -/
def SeeksWithoutPair (s : State) (bs : List Byte) : Prop :=
  (s.rx.pState = .seekSync1 ∧ hasSyncPair bs = false) ∨
  (s.rx.pState = .seekSync2 ∧ hasSyncPair (Config.sync1 :: bs) = false)

theorem hasSyncPair_tail {b : Byte} {bs : List Byte} (h : hasSyncPair (b :: bs) = false) : hasSyncPair bs = false := by
  cases bs with
  | nil => rfl
  | cons c cs =>
    simp only [hasSyncPair, Bool.or_eq_false_iff] at h
    exact h.2

theorem ne_sync2_of_not_hasSyncPair {b : Byte} {bs : List Byte} (h : hasSyncPair (Config.sync1 :: b :: bs) = false) :
    b ≠ Config.sync2 := by
  rintro rfl
  simp [hasSyncPair] at h

/-- A byte that completes no sync pair posts nothing and leaves the parser seeking (R85, R86). -/
theorem SeeksWithoutPair.step {s : State} {b : Byte} {bs : List Byte} (h : SeeksWithoutPair s (b :: bs)) :
    ∃ t, execParseByte b s = .next t ∧ SeeksWithoutPair t bs ∧ t.events = s.events := by
  obtain ⟨hst, hpair⟩ | ⟨hst, hpair⟩ := h
  · refine ⟨_, execParseByte_seekSync1 b hst, ?_, parseSeekSync1_events b s⟩
    by_cases h1 : b = Config.sync1
    · rw [parseSeekSync1, if_pos h1]
      exact .inr ⟨rfl, h1 ▸ hpair⟩
    · rw [parseSeekSync1, if_neg h1]
      exact .inl ⟨hst, hasSyncPair_tail hpair⟩
  · refine ⟨_, execParseByte_seekSync2 b hst, ?_, parseSeekSync2_events b s⟩
    rw [parseSeekSync2, if_neg (ne_sync2_of_not_hasSyncPair hpair)]
    by_cases h1 : b = Config.sync1
    · rw [if_pos h1]
      exact .inr ⟨rfl, h1 ▸ hasSyncPair_tail hpair⟩
    · rw [if_neg h1]
      exact .inl ⟨rfl, hasSyncPair_tail (hasSyncPair_tail hpair)⟩

/-- Noise without a sync pair posts nothing and leaves the parser seeking. -/
theorem SeeksWithoutPair.parse {bs : List Byte} {s : State} (h : SeeksWithoutPair s bs) :
    ∃ t, parseStream s bs = .next t ∧ (t.rx.pState = .seekSync1 ∨ t.rx.pState = .seekSync2) ∧
      t.events = s.events := by
  induction bs generalizing s with
  | nil => exact ⟨s, rfl, h.imp And.left And.left, rfl⟩
  | cons b bs ih =>
    obtain ⟨u, hu, hnext, hevents⟩ := h.step
    obtain ⟨t, ht, hst, hrest⟩ := ih hnext
    exact ⟨t, (parseStream_cons_next hu).trans ht, hst, hrest.trans hevents⟩

/-- Settles O41: the noise leaves the parser in one of the sync-seeking states, and a frame is taken from either. -/
theorem noiseBeforeAFrameIsIgnored : Obligations.NoiseBeforeAFrameIsIgnored := by
  unfold Obligations.NoiseBeforeAFrameIsIgnored
  intro s noise c i p f hst hnoise hfits hf
  obtain ⟨-, rfl⟩ := encodeFrame_eq_ok_iff.1 hf
  have hseeks : SeeksWithoutPair s noise := .inl ⟨hst, hnoise⟩
  obtain ⟨u, hu, hseek, hevents⟩ := hseeks.parse
  have hcap : u.maxPayload = s.maxPayload := runInstrs_keeps_maxPayload hu
  obtain ⟨t, ht, htseek, htevents⟩ := parseStream_frameBytes c i hseek (hcap ▸ hfits)
  exact ⟨t, (parseStream_append_next hu).trans ht, hevents ▸ htevents, htseek⟩

/-! ## A corrupted last byte (R104) -/

/-- A frame's last byte is CK_B (R44). -/
theorem getLast?_frameBytes {c i lo hi : Byte} {p : List Byte} (hlen : p.length = (lenOf hi lo).toNat) :
    (frameBytes c i p).getLast? = some (checksum ([c, i, lo, hi] ++ p)).b := by
  rw [frameBytes_eq hlen, List.getLast?_append]
  rfl

/-- Any other byte in the place of CK_B posts ChecksumMismatch (R93). -/
theorem parseStream_corrupted {s : State} (c i : Byte) {p : List Byte} {x : Byte} (hst : s.rx.pState = .seekSync1)
    (hfits : p.length ≤ s.maxPayload.val) (hx : (frameBytes c i p).getLast? ≠ some x) :
    ∃ t, parseStream s ((frameBytes c i p).dropLast ++ [x]) = .next t ∧ t.rx.pState = .seekSync1 ∧
      t.events = s.events ++ [.error .checksumMismatch] := by
  have hcap := s.maxPayload.isLt
  obtain ⟨hi, lo, hlen⟩ := exists_lengthBytes (n := p.length) (by omega)
  rw [getLast?_frameBytes hlen] at hx
  obtain ⟨u, t, hrun, hlast, hseek, hevents⟩ := frame_fields_settle (s := frameStart s) c i lo hi
    (checksum ([c, i, lo, hi] ++ p)).a x rfl hlen hfits
  obtain ⟨-, hparse⟩ := hrun.settles hlast
  have hmismatch : verdict c i p (checksum ([c, i, lo, hi] ++ p)) ⟨(checksum ([c, i, lo, hi] ++ p)).a, x⟩ =
      .error .checksumMismatch :=
    if_neg fun heq => hx (congrArg some (congrArg Acc.b heq))
  refine ⟨t, ?_, hseek, ?_⟩
  · rw [dropLast_frameBytes hlen, List.cons_append, List.cons_append, parseStream_syncPair _ (.inl hst), hparse]
  · rw [← hmismatch]
    exact hevents

/-- Settles O42: up to CK_B the bytes are fields, the wrong CK_B ends the frame, and the next frame is taken from
SeekSync1. -/
theorem corruptionIsRecoveredFrom : Obligations.CorruptionIsRecoveredFrom := by
  unfold Obligations.CorruptionIsRecoveredFrom
  intro s c i p f x hst hfits hf hx
  obtain ⟨-, rfl⟩ := encodeFrame_eq_ok_iff.1 hf
  obtain ⟨u, hu, hquiet⟩ := parseStream_dropLast_frameBytes c i (.inl hst) hfits
  obtain ⟨t, ht, hseek, hevents⟩ := parseStream_corrupted c i hst hfits hx
  refine ⟨⟨u, hu, hquiet.events⟩, t, ht, hevents, hseek, fun c' i' p' f' hfits' hf' => ?_⟩
  obtain ⟨-, rfl⟩ := encodeFrame_eq_ok_iff.1 hf'
  have hcap : t.maxPayload = s.maxPayload := runInstrs_keeps_maxPayload ht
  obtain ⟨v, hv, hvseek, hvevents⟩ := parseStream_frameBytes c' i' (.inl hseek) (hcap ▸ hfits')
  exact ⟨v, hv, by rw [hvevents, hevents, List.append_assoc]; rfl, hvseek⟩

end Sys2Proof.Machine
end

section
/-! RESET (R105, R117): its meaning is `ApplyReset`, its word does what the reset input does, and neither leads out of a
fault. -/

namespace Sys2Proof.Machine

open Sys2Proof Sys2Proof.Safety

theorem exec_reset (s : State) : exec .reset s = .next (applyReset s) := rfl

/-- Whatever stands on the port, a state that has faulted is stuck (R117). -/
theorem step_withPort_of_faulted {s : State} (hf : s.faulted = true) (p : List PortInput) :
    step { s with port := p } = .fault .stuckAfterFault :=
  step_of_faulted (s := { s with port := p }) hf

/-- The word of RESET and the reset input are one step, in a run that has faulted as well (R105, R117). -/
theorem step_resetWord_eq_resetInput (s : State) (rest : List PortInput) :
    step { s with port := .command 0x7000000000000000#64 :: rest } = step { s with port := .resetInput :: rest } := by
  by_cases hf : s.faulted = true
  · rw [step_withPort_of_faulted hf, step_withPort_of_faulted hf]
  · exact (resetInputAppliesReset s rest (Bool.eq_false_of_not_eq_true hf)).2

/-- Settles O44: RESET answers `applyReset` of the state, which has the reset values and keeps the rest; a faulted state
has no next step; a word of this OP that decodes has no other bit set. -/
theorem resetCommandResetsTheBlock : Obligations.ResetCommandResetsTheBlock := by
  unfold Obligations.ResetCommandResetsTheBlock
  refine ⟨fun s => ?_, step_resetWord_eq_resetInput, fun s rest hf t ht => ?_, rfl,
    fun w hop hbody => decode_error_of_not_ok fun i hi => ?_⟩
  · obtain ⟨hstate, hremaining, heck, hseek, hcku⟩ := applyReset_hasResetValues s
    exact ⟨applyReset s, exec_reset s, hstate, hremaining, heck, hseek, hcku, rfl, rfl, rfl, rfl, rfl⟩
  · rw [step_withPort_of_faulted hf] at ht
    cases ht
  · exact hbody ((decode_reservedBitsZero hi).onlyOp (.inr hop))

end Sys2Proof.Machine
end

section
/-! Events and errors (R106 to R110, R113, R118): the rows of the event table as one relation, that a command posts an
event exactly when a row says so, and the order of the checks before it. -/

namespace Sys2Proof.Machine

open Sys2Proof

/-! ## Which command posts which event -/

/-- The command `i`, when it answers a next state from `s`, posts the event: one constructor for each row of R106, with
the cause R107 to R110 give it. -/
inductive Posts (s : State) : Instr → Event → Prop where
  | invalidLength {cls id : Byte} {len : LenReq} (hlong : 65535 < len.toNat) :
      Posts s (.encBegin cls id len) (.error .invalidLength)
  | checksumMismatch {b : Byte} (hst : s.rx.pState = .readCkB)
      (hck : ¬ (s.rx.pRxCka = s.rx.pck.a ∧ b = s.rx.pck.b)) : Posts s (.parseByte b) (.error .checksumMismatch)
  | frameTooLarge {b : Byte} (hst : s.rx.pState = .readLenHi)
      (hlong : s.maxPayload.val < b.toNat * 256 + s.rx.pLen.toNat % 256) :
      Posts s (.parseByte b) (.error .frameTooLarge)
  | frame {b : Byte} (hst : s.rx.pState = .readCkB) (ha : s.rx.pRxCka = s.rx.pck.a) (hb : b = s.rx.pck.b)
      (hfits : s.rx.pLen.toNat ≤ s.maxPayload.val) :
      Posts s (.parseByte b) (.frame s.rx.pClass s.rx.pId (framePayload s))

@[simp] theorem framePayload_length (s : State) : (framePayload s).length = s.rx.pLen.toNat := by
  simp [framePayload]

theorem parseReadLenHi_events_of_fits {b : Byte} {s : State}
    (hfits : ¬ s.maxPayload.val < (setLenHi s.rx.pLen b).toNat) : (parseReadLenHi b s).events = s.events := by
  by_cases hzero : setLenHi s.rx.pLen b = 0#16
  · rw [parseReadLenHi_zero hzero]
  · rw [parseReadLenHi_payload hfits hzero]

/-- Where a row applies, the command posts its event and sends no byte. -/
theorem Posts.exec_outputs {i : Instr} {s t : State} {e : Event} (hpost : Posts s i e) (h : exec i s = .next t) :
    t.events = s.events ++ [e] ∧ t.tx = s.tx := by
  cases hpost with
  | invalidLength hlong =>
    obtain ⟨hidle, -⟩ := execEncBegin_next h
    cases (execEncBegin_tooLong _ _ hidle hlong).symm.trans h
    exact ⟨rfl, rfl⟩
  | checksumMismatch hst hck =>
    cases (execParseByte_readCkB_mismatch _ hst hck).symm.trans h
    exact ⟨rfl, rfl⟩
  | @frameTooLarge b hst hlong =>
    rw [← setLenHi_toNat] at hlong
    have hlenHi := execParseByte_readLenHi b hst
    rw [parseReadLenHi_tooLarge hlong] at hlenHi
    cases hlenHi.symm.trans h
    exact ⟨rfl, rfl⟩
  | frame hst ha hb hfits =>
    cases (execParseByte_readCkB_match _ hst ha hb hfits).symm.trans h
    exact ⟨rfl, rfl⟩

/-- Only the length check and the checksum check of PARSE_BYTE post (R90, R93). -/
theorem execParseByte_quiet_or_posts {b : Byte} {s t : State} (h : execParseByte b s = .next t) :
    t.events = s.events ∨ ∃ e, Posts s (.parseByte b) e := by
  obtain ⟨-, rfl⟩ | ⟨-, rfl⟩ | ⟨-, rfl⟩ | ⟨-, rfl⟩ | ⟨-, rfl⟩ | ⟨hst, rfl⟩ | ⟨-, -, rfl⟩ | ⟨-, rfl⟩ | ⟨hst, hckB⟩ :=
    execParseByte_next h
  · exact .inl (parseSeekSync1_events b s)
  · exact .inl (parseSeekSync2_events b s)
  · exact .inl rfl
  · exact .inl rfl
  · exact .inl rfl
  · by_cases hlong : s.maxPayload.val < (setLenHi s.rx.pLen b).toNat
    · exact .inr ⟨_, .frameTooLarge hst (setLenHi_toNat _ _ ▸ hlong)⟩
    · exact .inl (parseReadLenHi_events_of_fits hlong)
  · exact .inl rfl
  · exact .inl rfl
  · obtain ⟨ha, hb, hfits, -⟩ | ⟨hck, -⟩ := parseReadCkB_next hckB
    · exact .inr ⟨_, .frame hst ha hb hfits⟩
    · exact .inr ⟨_, .checksumMismatch hst hck⟩

/-- A command for which no row applies posts nothing. -/
theorem exec_quiet_or_posts {i : Instr} {s t : State} (h : exec i s = .next t) :
    t.events = s.events ∨ ∃ e, Posts s i e := by
  cases i with
  | encBegin cls id len =>
    obtain ⟨-, ⟨hlong, -⟩ | ⟨-, -, rfl⟩ | ⟨-, -, rfl⟩⟩ := execEncBegin_next h
    · exact .inr ⟨_, .invalidLength hlong⟩
    · exact .inl rfl
    · exact .inl rfl
  | encData b =>
    obtain ⟨-, ⟨-, rfl⟩ | ⟨-, rfl⟩⟩ := execEncData_next h
    · exact .inl rfl
    · exact .inl rfl
  | encPoll cls id =>
    obtain ⟨-, rfl⟩ := execEncPoll_next h
    exact .inl rfl
  | parseByte b => exact execParseByte_quiet_or_posts h
  | ckClear => cases h; exact .inl rfl
  | ckUpdate b => cases h; exact .inl rfl
  | reset => cases h; exact .inl rfl

/-- A command posts an event exactly when a row says so (R106). -/
theorem exec_events_iff_posts {i : Instr} {s t : State} {e : Event} (h : exec i s = .next t) :
    t.events = s.events ++ [e] ↔ Posts s i e := by
  refine ⟨fun hevents => ?_, fun hpost => (hpost.exec_outputs h).1⟩
  obtain hquiet | ⟨e', hpost⟩ := exec_quiet_or_posts h
  · simp [hquiet] at hevents
  · obtain ⟨hevents', -⟩ := hpost.exec_outputs h
    obtain rfl : e = e' := by simpa using hevents.symm.trans hevents'
    exact hpost

/-! ## The cause of each error (R108 to R110) -/

theorem posts_invalidLength_iff {s : State} {i : Instr} :
    Posts s i (.error .invalidLength) ↔ ∃ cls id len, i = .encBegin cls id len ∧ 65535 < len.toNat := by
  constructor
  · intro hpost
    cases hpost with
    | invalidLength hlong => exact ⟨_, _, _, rfl, hlong⟩
  · rintro ⟨cls, id, len, rfl, hlong⟩
    exact .invalidLength hlong

theorem posts_checksumMismatch_iff {s : State} {i : Instr} :
    Posts s i (.error .checksumMismatch) ↔
      ∃ b, i = .parseByte b ∧ s.rx.pState = .readCkB ∧ ¬ (s.rx.pRxCka = s.rx.pck.a ∧ b = s.rx.pck.b) := by
  constructor
  · intro hpost
    cases hpost with
    | checksumMismatch hst hck => exact ⟨_, rfl, hst, hck⟩
  · rintro ⟨b, rfl, hst, hck⟩
    exact .checksumMismatch hst hck

theorem posts_frameTooLarge_iff {s : State} {i : Instr} :
    Posts s i (.error .frameTooLarge) ↔
      ∃ b, i = .parseByte b ∧ s.rx.pState = .readLenHi ∧
        s.maxPayload.val < b.toNat * 256 + s.rx.pLen.toNat % 256 := by
  constructor
  · intro hpost
    cases hpost with
    | frameTooLarge hst hlong => exact ⟨_, rfl, hst, hlong⟩
  · rintro ⟨b, rfl, hst, hlong⟩
    exact .frameTooLarge hst hlong

/-! ## Events (R106, R113) -/

/-- Settles O45: a command posts what its row says, and each event has one row; the payload of a frame event has one
byte for each address below `p_len`. -/
theorem eventsArePostedByTheirCommands : Obligations.EventsArePostedByTheirCommands := by
  unfold Obligations.EventsArePostedByTheirCommands
  refine ⟨fun i s t c d p h hevents => ?_, fun i s t h => (exec_events_iff_posts h).trans posts_invalidLength_iff,
    fun i s t h => (exec_events_iff_posts h).trans posts_checksumMismatch_iff,
    fun i s t h => (exec_events_iff_posts h).trans posts_frameTooLarge_iff⟩
  cases (exec_events_iff_posts h).1 hevents with
  | frame hst ha hb hfits =>
    have hlen := framePayload_length s
    exact ⟨⟨_, rfl, hst, ha, hb⟩, rfl, rfl, hlen, hlen.trans_le hfits⟩

/-- Settles O46: a step with nothing to take and the reset input output nothing, and a command that posts does so by a
row, which posts one event and sends no byte. -/
theorem atMostOneEventAndNeverWithBytes : Obligations.AtMostOneEventAndNeverWithBytes := by
  unfold Obligations.AtMostOneEventAndNeverWithBytes
  intro s t h
  obtain ⟨-, ⟨-, rfl⟩ | ⟨rest, -, rfl⟩ | ⟨w, rest, i, -, -, hexec⟩⟩ := step_next h
  · exact .inl rfl
  · exact .inl rfl
  · exact (exec_quiet_or_posts hexec).imp id fun ⟨e, hpost⟩ => ⟨e, hpost.exec_outputs hexec⟩

/-! ## Errors (R107) -/

/-- Settles O47: an error posted is that of one of the three error rows. -/
theorem errorCodesAreAsListed : Obligations.ErrorCodesAreAsListed := by
  unfold Obligations.ErrorCodesAreAsListed
  intro i s t e h hevents
  cases (exec_events_iff_posts h).1 hevents with
  | invalidLength hlong => exact .inl ⟨rfl, rfl, rfl, _, _, _, rfl, hlong⟩
  | checksumMismatch hst hck =>
    exact .inr (.inl ⟨rfl, rfl, rfl, _, rfl, hst, fun heq => hck ⟨congrArg Acc.a heq, congrArg Acc.b heq⟩⟩)
  | frameTooLarge hst hlong => exact .inr (.inr ⟨rfl, rfl, rfl, _, rfl, hst, hlong⟩)

/-! ## The order of the checks (R118) -/

/-- Settles O14: a rejected word stops the step before any command is run, and an open frame faults an ENC_BEGIN of any
length. -/
theorem decodeThenOpenFrameThenLength : Obligations.DecodeThenOpenFrameThenLength := by
  unfold Obligations.DecodeThenOpenFrameThenLength
  exact ⟨fun s w rest hf hw => step_of_rejected (s := { s with port := .command w :: rest }) hf rfl hw,
    fun s cls id len hopen _ => execEncBegin_of_payload cls id len hopen⟩

end Sys2Proof.Machine
end

section
/-! Commands of two different units in either order (R131): a command that reads one part of the state and writes that
part alone gives the same before and after a command of another part, so both orders end together, and what differs is
how the events of two units are interleaved. -/

namespace Sys2Proof.Machine

open Sys2Proof

/-! ## The same but for the order of events of different units -/

/-- The same state and TX stream, and the same events of each unit in the same order. -/
structure SameUpToInterleaving (u t : State) : Prop where
  state : { u with events := t.events } = t
  ofEncoder : u.events.filter Event.ofEncoder = t.events.filter Event.ofEncoder
  notOfEncoder : u.events.filter (fun e => !e.ofEncoder) = t.events.filter (fun e => !e.ofEncoder)

theorem SameUpToInterleaving.refl (s : State) : SameUpToInterleaving s s := ⟨rfl, rfl, rfl⟩

theorem SameUpToInterleaving.symm {u t : State} (h : SameUpToInterleaving u t) : SameUpToInterleaving t u := by
  refine ⟨?_, h.ofEncoder.symm, h.notOfEncoder.symm⟩
  rw [← h.state]

/-- Where `i` then `j` answers, `j` then `i` answers the same up to the interleaving of events. -/
def MayBeSwapped (i j : Instr) : Prop :=
  ∀ s t, runInstrs [i, j] s = .next t → ∃ u, runInstrs [j, i] s = .next u ∧ SameUpToInterleaving u t

/-! ## Commands of two separate parts of the state -/

/-- The command's outcome is its outcome on a part of the state alone, put back over the rest. -/
def LocalTo (i : Instr) (alone : State → State) (putOver : State → State → State) : Prop :=
  ∀ s, exec i s = mapNext (putOver s) (exec i (alone s))

/-- Two local commands, the first of which leaves the second one's part alone, answer when each answers on its part. -/
theorem runInstrs_pair_next_iff {i j : Instr} {aloneI aloneJ : State → State} {overI overJ : State → State → State}
    (hi : LocalTo i aloneI overI) (hj : LocalTo j aloneJ overJ) (hapart : ∀ s r, aloneJ (overI s r) = aloneJ s)
    {s t : State} :
    runInstrs [i, j] s = .next t ↔
      ∃ r q, exec i (aloneI s) = .next r ∧ exec j (aloneJ s) = .next q ∧ t = overJ (overI s r) q := by
  constructor
  · intro h
    obtain ⟨v, hv, h⟩ := runInstrs_cons_inv h
    obtain ⟨w, hw, h⟩ := runInstrs_cons_inv h
    cases h
    obtain ⟨r, hr, rfl⟩ := mapNext_eq_next ((hi s).symm.trans hv)
    obtain ⟨q, hq, rfl⟩ := mapNext_eq_next ((hj _).symm.trans hw)
    exact ⟨r, q, hr, hapart s r ▸ hq, rfl⟩
  · rintro ⟨r, q, hr, hq, rfl⟩
    have hfirst : exec i s = .next (overI s r) := by rw [hi s, hr, mapNext_next]
    have hsecond : exec j (overI s r) = .next (overJ (overI s r) q) := by rw [hj, hapart, hq, mapNext_next]
    rw [runInstrs_cons_next hfirst, runInstrs_cons_next hsecond, runInstrs_nil]

/-- Local commands of parts that leave each other alone may be swapped, if putting back their results in either order
gives the same. -/
theorem mayBeSwapped_of_localTo {i j : Instr} {aloneI aloneJ : State → State} {overI overJ : State → State → State}
    (hi : LocalTo i aloneI overI) (hj : LocalTo j aloneJ overJ)
    (hij : ∀ s r, aloneJ (overI s r) = aloneJ s) (hji : ∀ s q, aloneI (overJ s q) = aloneI s)
    (hover : ∀ s r q, exec i (aloneI s) = .next r → exec j (aloneJ s) = .next q →
      SameUpToInterleaving (overI (overJ s q) r) (overJ (overI s r) q)) :
    MayBeSwapped i j ∧ MayBeSwapped j i := by
  constructor
  · intro s t h
    obtain ⟨r, q, hr, hq, rfl⟩ := (runInstrs_pair_next_iff hi hj hij).1 h
    exact ⟨_, (runInstrs_pair_next_iff hj hi hji).2 ⟨q, r, hq, hr, rfl⟩, hover s r q hr hq⟩
  · intro s t h
    obtain ⟨q, r, hq, hr, rfl⟩ := (runInstrs_pair_next_iff hj hi hji).1 h
    exact ⟨_, (runInstrs_pair_next_iff hi hj hij).2 ⟨r, q, hr, hq, rfl⟩, (hover s r q hr hq).symm⟩

/-! ## The events of an encoder command and of PARSE_BYTE -/

/-- An encoder command posts no event of the parser (R106, R108). -/
theorem exec_encoder_keeps_notOfEncoder {i : Instr} {s t : State} (hi : i.isEncoder = true) (h : exec i s = .next t) :
    t.events.filter (fun e => !e.ofEncoder) = s.events.filter (fun e => !e.ofEncoder) := by
  obtain hquiet | ⟨e, hpost⟩ := exec_quiet_or_posts h
  · rw [hquiet]
  · obtain ⟨hevents, -⟩ := hpost.exec_outputs h
    cases hpost with
    | invalidLength hlong => simp [hevents, Event.ofEncoder]
    | checksumMismatch hst hck => cases hi
    | frameTooLarge hst hlong => cases hi
    | frame hst ha hb hfits => cases hi

/-- PARSE_BYTE posts no event of the encoder (R106, R109, R110). -/
theorem exec_parser_keeps_ofEncoder {i : Instr} {s t : State} (hi : i.isParser = true) (h : exec i s = .next t) :
    t.events.filter Event.ofEncoder = s.events.filter Event.ofEncoder := by
  cases i with
  | parseByte b => exact (encoderAlike_of_not_encoder rfl Instr.noConfusion h).events
  | encBegin cls id len => cases hi
  | encData b => cases hi
  | encPoll cls id => cases hi
  | ckClear => cases hi
  | ckUpdate b => cases hi
  | reset => cases hi

/-- The encoder and the parser share the event stream alone, and each posts events of its own. -/
theorem encOver_rxOver_sameUpToInterleaving {s r q : State} (hr : r.events.filter (fun e => !e.ofEncoder) = [])
    (hq : q.events.filter Event.ofEncoder = []) :
    SameUpToInterleaving (encOver (rxOver s q) r) (rxOver (encOver s r) q) := by
  refine ⟨rfl, ?_, ?_⟩
  · simp only [encOver, rxOver, List.filter_append, hq, List.append_nil]
  · simp only [encOver, rxOver, List.filter_append, hr, List.append_nil]

/-! ## Each two of the three units -/

theorem localTo_encoder {i : Instr} (hi : i.isEncoder = true) : LocalTo i (fun s => encAlone s.enc) encOver :=
  exec_encoder_local hi

theorem localTo_parser {i : Instr} (hi : i.isParser = true) :
    LocalTo i (fun s => rxAlone s.rx s.maxPayload s.freeEpoch) rxOver :=
  exec_parser_local hi

theorem localTo_checksum {i : Instr} (hi : i.isChecksum = true) : LocalTo i (fun s => ckuAlone s.cku) ckuOver :=
  exec_checksum_local hi

theorem encoder_parser_mayBeSwapped {i j : Instr} (hi : i.isEncoder = true) (hj : j.isParser = true) :
    MayBeSwapped i j ∧ MayBeSwapped j i :=
  mayBeSwapped_of_localTo (localTo_encoder hi) (localTo_parser hj) (fun _ _ => rfl) (fun _ _ => rfl)
    fun _ _ _ hr hq => encOver_rxOver_sameUpToInterleaving
      (exec_encoder_keeps_notOfEncoder hi hr) (exec_parser_keeps_ofEncoder hj hq)

theorem encoder_checksum_mayBeSwapped {i j : Instr} (hi : i.isEncoder = true) (hj : j.isChecksum = true) :
    MayBeSwapped i j ∧ MayBeSwapped j i :=
  mayBeSwapped_of_localTo (localTo_encoder hi) (localTo_checksum hj) (fun _ _ => rfl) (fun _ _ => rfl)
    fun _ _ _ _ _ => .refl _

theorem parser_checksum_mayBeSwapped {i j : Instr} (hi : i.isParser = true) (hj : j.isChecksum = true) :
    MayBeSwapped i j ∧ MayBeSwapped j i :=
  mayBeSwapped_of_localTo (localTo_parser hi) (localTo_checksum hj) (fun _ _ => rfl) (fun _ _ => rfl)
    fun _ _ _ _ _ => .refl _

theorem mayBeSwapped_of_units {i j : Instr}
    (h : (i.isEncoder = true ∧ (j.isParser = true ∨ j.isChecksum = true)) ∨
      (i.isParser = true ∧ (j.isEncoder = true ∨ j.isChecksum = true)) ∨
      (i.isChecksum = true ∧ (j.isEncoder = true ∨ j.isParser = true))) : MayBeSwapped i j := by
  obtain ⟨hi, hj | hj⟩ | ⟨hi, hj | hj⟩ | ⟨hi, hj | hj⟩ := h
  · exact (encoder_parser_mayBeSwapped hi hj).1
  · exact (encoder_checksum_mayBeSwapped hi hj).1
  · exact (encoder_parser_mayBeSwapped hj hi).2
  · exact (parser_checksum_mayBeSwapped hi hj).1
  · exact (encoder_checksum_mayBeSwapped hj hi).2
  · exact (parser_checksum_mayBeSwapped hj hi).2

/-- Settles O53: a command's outcome rests on its unit alone, which a command of another unit leaves as it is; the
events they post are of different units. -/
theorem unitsCommute : Obligations.UnitsCommute := by
  unfold Obligations.UnitsCommute
  intro i j s t hunits h
  obtain ⟨u, hu, hstate, hofEncoder, hnotOfEncoder⟩ := mayBeSwapped_of_units hunits s t h
  exact ⟨u, hu, hstate, hofEncoder, hnotOfEncoder⟩

end Sys2Proof.Machine
end
